-- ==== Sys2Proof/Word.lean ====
section
/-! DEFINITION. The bit-vector words of the two blocks (spec 00_scope.md R5, R6). Every value is unsigned. -/

namespace Sys2Proof

/-- One element of a ByteSequence, one character code or one decoder input unit: `BYTE_W = UNIT_W = 8` (R5, R37). -/
abbrev Byte := BitVec 8

/-- An alphabet index, a six-bit value 0 to 63: `SEXTET_W = 6` (R5, R6). -/
abbrev Sextet := BitVec 6

/-- The options word on port `opt`: `OPT_W = 8` (R5, R21, R59). -/
abbrev OptWord := BitVec 8

/-- The error kind code on port `out_kind` (R25, R60). -/
abbrev KindCode := BitVec 1

/-- Concatenation of three bytes, the first in the most significant position: `{b0, b1, b2}` (R6, R35). -/
abbrev Word24 := BitVec 24

end Sys2Proof
end

