-- ==== Sys2Proof/Config.lean ====
section
/-! DEFINITION. The implementation parameters of 00_scope.md R5 that the model reads. The spec decides every one of
them (92_eei_decisions.md, "Open parameters: None is left open"), so each is a plain constant; the model has no free
value, because the spec gives every input on every port a defined result (R64, 93_implementation_defined.md). -/

namespace Sys2Proof.Config

/-- `OPT_SKIP_BIT`: the bit of the options word that is `SkipInvalidInputBytes` (R5, R59, decision D10). -/
def optSkipBit : Nat := 0

/-- `KIND_UNKNOWN`: the code of error kind Unknown (R5, R60, decision D11). -/
def kindUnknown : KindCode := 0#1

/-- `KIND_INVALID_INPUT`: the code of error kind InvalidInput (R5, R60, decision D11). -/
def kindInvalidInput : KindCode := 1#1

/-- `OQ_DEPTH`: the capacity of the decoder's output queue, in beats (R5, R15, decision D13). -/
def oqDepth : Nat := 2

/-- The number of pending-sextet cells `pend0`, `pend1`, `pend2` (R11, R12). -/
def pendDepth : Nat := 3

end Sys2Proof.Config
end

