-- ==== Sys2Proof/Machine/Operands.lean ====
section
/-! DEFINITION. Operand assembly (30_encoding.md R63): the alphabet tables in both directions, the 24-bit regrouper and
packer, the tails of a final group, and the option bit. No operation has another operand form. -/

namespace Sys2Proof.Machine

/-- The code of the padding symbol `=` (R51). -/
def padChar : Byte := 0x3D#8

/-- `EncLUT`, the sextet-to-character table (R81, table of R50). -/
def encLut (v : Sextet) : Byte :=
  if v ≤ 25#6 then 0x41#8 + v.setWidth 8
  else if v ≤ 51#6 then 0x61#8 + (v.setWidth 8 - 26#8)
  else if v ≤ 61#6 then 0x30#8 + (v.setWidth 8 - 52#8)
  else if v = 62#6 then 0x2B#8
  else 0x2F#8

/-- The class of a unit: an alphabet symbol with its value, the padding symbol, or neither (R53). -/
inductive UnitClass where
  | sym (v : Sextet)
  | pad
  | inv
deriving DecidableEq, Repr

/-- `DecClass`, the character-to-sextet table with validity class (R100, table of R53). -/
def decClass (u : Byte) : UnitClass :=
  if 0x41#8 ≤ u ∧ u ≤ 0x5A#8 then .sym ((u - 0x41#8).setWidth 6)
  else if 0x61#8 ≤ u ∧ u ≤ 0x7A#8 then .sym ((u - 0x61#8 + 26#8).setWidth 6)
  else if 0x30#8 ≤ u ∧ u ≤ 0x39#8 then .sym ((u - 0x30#8 + 52#8).setWidth 6)
  else if u = 0x2B#8 then .sym 62#6
  else if u = 0x2F#8 then .sym 63#6
  else if u = 0x3D#8 then .pad
  else .inv

/-- Four sextets, `s0` first in text order. -/
structure Sextets where
  s0 : Sextet
  s1 : Sextet
  s2 : Sextet
  s3 : Sextet
deriving DecidableEq, Repr

/-- Three bytes, `y0` first in sequence order: a completed group of the decoder. -/
structure Group where
  y0 : Byte
  y1 : Byte
  y2 : Byte
deriving DecidableEq, Repr

/-- The big-endian 24-bit group `{b0, b1, b2}` (R35, R80). -/
def concat24 (b0 b1 b2 : Byte) : Word24 := b0 ++ b1 ++ b2

/-- `Regroup24`, the 24-bit regrouper: three bytes to four sextets, most significant bits first (R80). -/
def regroup24 (b0 b1 b2 : Byte) : Sextets :=
  let g := concat24 b0 b1 b2
  { s0 := g.extractLsb' 18 6
    s1 := g.extractLsb' 12 6
    s2 := g.extractLsb' 6 6
    s3 := g.extractLsb' 0 6 }

/-- The 24-bit value `{v0, v1, v2, v3}` (R101). -/
def concatSextets (v0 v1 v2 v3 : Sextet) : Word24 := v0 ++ v1 ++ v2 ++ v3

/-- `Pack24`, the 24-bit packer: four sextets to three bytes (R101). -/
def pack24 (v0 v1 v2 v3 : Sextet) : Group :=
  let g := concatSextets v0 v1 v2 v3
  { y0 := g.extractLsb' 16 8
    y1 := g.extractLsb' 8 8
    y2 := g.extractLsb' 0 8 }

/-- The top 8 of the 12 bits `{v0, v1}`: the byte a tail of two sextets yields; the low 4 bits are discarded (R107). -/
def tail12 (v0 v1 : Sextet) : Byte := (v0 ++ v1 : BitVec 12).extractLsb' 4 8

/-- Bits 17 to 10 of the 18 bits `{v0, v1, v2}`: the first byte a tail of three sextets yields (R107). -/
def tail18hi (v0 v1 v2 : Sextet) : Byte := (v0 ++ v1 ++ v2 : BitVec 18).extractLsb' 10 8

/-- Bits 9 to 2 of the 18 bits `{v0, v1, v2}`: the second byte a tail of three sextets yields; the low 2 bits are
discarded (R107). -/
def tail18lo (v0 v1 v2 : Sextet) : Byte := (v0 ++ v1 ++ v2 : BitVec 18).extractLsb' 2 8

/-- `skip = opt[0]`: the one recognised flag, `SkipInvalidInputBytes`; no other bit is read (R21, R59). -/
def skipOf (opt : OptWord) : Bool := opt.getLsbD Config.optSkipBit

/-- The kinds of a `DecodeError` (R60, R145). -/
inductive ErrorKind where
  /-- Reserved; no operation produces it (R147). -/
  | unknown
  /-- Every failure of the decoder (R146). -/
  | invalidInput
deriving DecidableEq, Repr

/-- The code of an error kind on `out_kind` (R60). -/
def ErrorKind.code : ErrorKind → KindCode
  | .unknown => Config.kindUnknown
  | .invalidInput => Config.kindInvalidInput

/-- The kind a consumer reads from a code; it reads one only when `out_err = 1` (R60, R179). -/
def ErrorKind.ofCode (k : KindCode) : ErrorKind :=
  if k = Config.kindInvalidInput then .invalidInput else .unknown

end Sys2Proof.Machine
end

