-- ==== Sys2Proof/Syntax.lean ====
section
/-! DEFINITION. The operations of the two blocks, one constructor per operation of spec/opcode_table.json, and the beat
words they are written as. The table's 64 rows DEC_SYM, 191 rows DEC_INV and 64 rows EncLUT differ only in the value
of one operand (the sextet `v` or the unit `u`), which is the constructor's argument. -/

namespace Sys2Proof

/-- One lane of a decoder input beat: the keep bit and the unit (format `DEC_LANE`, R57). -/
structure Lane where
  keep : Bool
  unit : Byte
deriving DecidableEq, Repr

/-- The operations. Byte lanes and units that an operation ignores are kept as operands, so that no bit of a beat word
is dropped; the meanings ignore them (R54, R57, R83 to R85, R102). -/
inductive Instr where
  /-- ENC0 (R85): encoder beat with `count = 0`; all three byte lanes are ignored. -/
  | enc0 (last : Bool) (b0 b1 b2 : Byte)
  /-- ENC1 (R84): encoder beat with `count = 1`; byte lanes 1 and 2 are ignored. -/
  | enc1 (last : Bool) (b0 b1 b2 : Byte)
  /-- ENC2 (R83): encoder beat with `count = 2`; byte lane 2 is ignored. -/
  | enc2 (last : Bool) (b0 b1 b2 : Byte)
  /-- ENC3 (R82): encoder beat with `count = 3`. -/
  | enc3 (last : Bool) (b0 b1 b2 : Byte)
  /-- DEC_NOP (R102): a lane that holds no unit; its unit bits are ignored. -/
  | decNop (u : Byte)
  /-- DEC_SYM (R103): a lane that holds the alphabet symbol of value `v`. -/
  | decSym (v : Sextet)
  /-- DEC_PAD (R104): a lane that holds the padding symbol. -/
  | decPad
  /-- DEC_INV (R105): a lane that holds a unit `u` of class INV. -/
  | decInv (u : Byte)
  /-- DECB (R108): a decoder beat with `last = 0`: four lane operations in lane order. -/
  | decb (l0 l1 l2 l3 : Lane)
  /-- DEC_END, written `DECB.L` (R107, R108): a decoder beat with `last = 1`: four lane operations, then DEC_END. -/
  | decEnd (l0 l1 l2 l3 : Lane)
  /-- EncLUT (R81): one look-up in the sextet-to-character table. -/
  | encLut (v : Sextet)
deriving DecidableEq, Repr

/-- The beat formats an operation is selected from (R54, R56, R57, and the table's format `SEXTET`, R62). -/
inductive Format where
  | encIn
  | decIn
  | decLane
  | sextet
deriving DecidableEq, Repr

/-- A beat word as the host writes it: `bits` is the word as one number (bit 0 the least significant, R6), `nbits` the
number of bits it is written in, which tells the format: it stands for the port the beat is presented on (log 3). -/
structure BeatWord where
  nbits : Nat
  bits : Nat
deriving DecidableEq, Repr

/-- Why a beat word is no beat of any port. -/
inductive DecodeError where
  /-- No port and no table takes a word written in that many bits. -/
  | noSuchFormat (nbits : Nat)
  /-- A bit is set above the format's top bit, where the port has no wire. -/
  | strayBits (f : Format)
deriving DecidableEq, Repr

end Sys2Proof
end

