-- ==== Sys2Proof/WellFormed.lean ====
section
/-! DEFINITION. Which terms of `Instr` are operations of the blocks. Every operand value of every operation is legal
(R64), but for one: DEC_INV is the operation of a unit of class INV only (R62, R105). -/

namespace Sys2Proof

/-- The operation's operands are ones an encoding has. -/
def Instr.wellFormed : Instr → Bool
  | .enc0 _ _ _ _ => true
  | .enc1 _ _ _ _ => true
  | .enc2 _ _ _ _ => true
  | .enc3 _ _ _ _ => true
  | .decNop _ => true
  | .decSym _ => true
  | .decPad => true
  | .decInv u => decide (Machine.decClass u = .inv)
  | .decb _ _ _ _ => true
  | .decEnd _ _ _ _ => true
  | .encLut _ => true

end Sys2Proof
end

