-- ==== Sys2Proof/Decode.lean ====
section
/-! DEFINITION. From beat words to operations and back (30_encoding.md R54 to R57, R61, R62; the `match` and `mask`
columns of spec/opcode_table.json). Decoding is total on any word and refuses by name what is no beat of any port. -/

namespace Sys2Proof

/-- The slice `n[lo+w-1:lo]` of a word written as a number (R6). -/
def slice (n lo w : Nat) : BitVec w := BitVec.ofNat w (n / 2 ^ lo)

/-- Bit `i` of a word written as a number (R6). -/
def bitAt (n i : Nat) : Bool := n / 2 ^ i % 2 == 1

/-- The number of bits of a format's beat word (R54, R56, R57; `SEXTET` in R62). -/
def Format.width : Format → Nat
  | .encIn => 27
  | .decIn => 37
  | .decLane => 9
  | .sextet => 6

/-- The number of bits a format's word is written in: its width in whole bytes. -/
def Format.tableBits : Format → Nat
  | .encIn => 32
  | .decIn => 40
  | .decLane => 16
  | .sextet => 8

/-- The format of a word written in `nbits` bits: the shortest whose whole bytes reach that far (log 3). -/
def Format.ofBits (nbits : Nat) : Option Format :=
  if nbits = 0 then none
  else if nbits ≤ 8 then some .sextet
  else if nbits ≤ 16 then some .decLane
  else if nbits ≤ 32 then some .encIn
  else if nbits ≤ 64 then some .decIn
  else none

/-- Format `ENC_IN` (R54): the operation is selected by `count = [25:24]` alone (R61). -/
def decodeEncIn (n : Nat) : Instr :=
  let last := bitAt n 26
  let b0 := slice n 16 8
  let b1 := slice n 8 8
  let b2 := slice n 0 8
  if slice n 24 2 = 3#2 then .enc3 last b0 b1 b2
  else if slice n 24 2 = 2#2 then .enc2 last b0 b1 b2
  else if slice n 24 2 = 1#2 then .enc1 last b0 b1 b2
  else .enc0 last b0 b1 b2

/-- Format `DEC_LANE` (R57): the operation is selected by the keep bit and the class of the unit (R62). -/
def decodeDecLane (n : Nat) : Instr :=
  let u := slice n 0 8
  if bitAt n 8 then
    match Machine.decClass u with
    | .sym v => .decSym v
    | .pad => .decPad
    | .inv => .decInv u
  else .decNop u

/-- Format `DEC_IN` (R56): `last = [36]` selects whether DEC_END follows the four lanes (R62). -/
def decodeDecIn (n : Nat) : Instr :=
  let l0 : Lane := { keep := bitAt n 35, unit := slice n 24 8 }
  let l1 : Lane := { keep := bitAt n 34, unit := slice n 16 8 }
  let l2 : Lane := { keep := bitAt n 33, unit := slice n 8 8 }
  let l3 : Lane := { keep := bitAt n 32, unit := slice n 0 8 }
  if bitAt n 36 then .decEnd l0 l1 l2 l3 else .decb l0 l1 l2 l3

/-- The operation of a word of a given format. -/
def decodeAs (f : Format) (n : Nat) : Instr :=
  match f with
  | .encIn => decodeEncIn n
  | .decIn => decodeDecIn n
  | .decLane => decodeDecLane n
  | .sextet => .encLut (slice n 0 6)

/-- The operation a beat word selects; every pattern that fits its format selects one (R61, R62, R64). -/
def decode (w : BeatWord) : Except DecodeError Instr :=
  match Format.ofBits w.nbits with
  | none => .error (.noSuchFormat w.nbits)
  | some f => if w.bits < 2 ^ f.width then .ok (decodeAs f w.bits) else .error (.strayBits f)

/-- The operation the decoder reads from a word numbered as spec/opcode_table.json numbers it. -/
def decodeTableWord (nbits w : Nat) : Option Instr :=
  match decode { nbits := nbits, bits := w } with
  | .ok i => some i
  | .error _ => none

/-- The word of format `ENC_IN`, `{last, count, b0, b1, b2}` (R54). -/
def encInWord (last : Bool) (count : BitVec 2) (b0 b1 b2 : Byte) : BeatWord :=
  { nbits := 32
    bits := 2 ^ 26 * last.toNat + 2 ^ 24 * count.toNat + 2 ^ 16 * b0.toNat + 2 ^ 8 * b1.toNat + b2.toNat }

/-- The word of format `DEC_LANE`, `{k, u}` (R57). -/
def laneWord (keep : Bool) (u : Byte) : BeatWord :=
  { nbits := 16, bits := 2 ^ 8 * keep.toNat + u.toNat }

/-- The word of format `DEC_IN`, `{last, k0, k1, k2, k3, u0, u1, u2, u3}` (R56). -/
def decInWord (last : Bool) (l0 l1 l2 l3 : Lane) : BeatWord :=
  { nbits := 40
    bits := 2 ^ 36 * last.toNat + 2 ^ 35 * l0.keep.toNat + 2 ^ 34 * l1.keep.toNat + 2 ^ 33 * l2.keep.toNat
      + 2 ^ 32 * l3.keep.toNat + 2 ^ 24 * l0.unit.toNat + 2 ^ 16 * l1.unit.toNat + 2 ^ 8 * l2.unit.toNat
      + l3.unit.toNat }

/-- The beat word of an operation. The lane of DEC_SYM holds the symbol's character code, by the alphabet (R50, R62). -/
def encode : Instr → BeatWord
  | .enc0 last b0 b1 b2 => encInWord last 0#2 b0 b1 b2
  | .enc1 last b0 b1 b2 => encInWord last 1#2 b0 b1 b2
  | .enc2 last b0 b1 b2 => encInWord last 2#2 b0 b1 b2
  | .enc3 last b0 b1 b2 => encInWord last 3#2 b0 b1 b2
  | .decNop u => laneWord false u
  | .decSym v => laneWord true (Machine.encLut v)
  | .decPad => laneWord true Machine.padChar
  | .decInv u => laneWord true u
  | .decb l0 l1 l2 l3 => decInWord false l0 l1 l2 l3
  | .decEnd l0 l1 l2 l3 => decInWord true l0 l1 l2 l3
  | .encLut v => { nbits := 8, bits := v.toNat }

/-- The format an operation is encoded in (R61, R62). -/
def Instr.format : Instr → Format
  | .enc0 _ _ _ _ => .encIn
  | .enc1 _ _ _ _ => .encIn
  | .enc2 _ _ _ _ => .encIn
  | .enc3 _ _ _ _ => .encIn
  | .decNop _ => .decLane
  | .decSym _ => .decLane
  | .decPad => .decLane
  | .decInv _ => .decLane
  | .decb _ _ _ _ => .decIn
  | .decEnd _ _ _ _ => .decIn
  | .encLut _ => .sextet

end Sys2Proof
end

