-- ==== Sys2Proof/Machine/State.lean ====
section
/-! DEFINITION. The state of the machine, plain data: the decoder's registers and output queue (10_state.md R11, R28),
the options port as the host drives it (R21), and the two agents of 20_memory.md R44 that act on the blocks, the
producer (what it still will do) and the consumer (what it has received). The encoder adds nothing: it has no state
(R10). -/

namespace Sys2Proof.Machine

/-- The codec state of the decoder (R28): `pend_cnt` is `pend.length` and `pend<i>` is `pend[i]` (R12). -/
structure Codec where
  /-- The pending sextets, oldest first; at most three (R11, R12). -/
  pend : List Sextet
  /-- A padding symbol has been consumed in the current message (R13). -/
  padSeen : Bool
  /-- The current message has failed with `InvalidInput` (R14). -/
  failed : Bool
deriving DecidableEq, Repr

/-- The codec state after reset and after DEC_END (R16, R17, R28). -/
def Codec.reset : Codec := { pend := [], padSeen := false, failed := false }

/-- One beat of the decoder's output port, `DecOutBeat` (R58). -/
structure DecOutBeat where
  last : Bool
  err : Bool
  kind : KindCode
  count : BitVec 2
  y0 : Byte
  y1 : Byte
  y2 : Byte
deriving DecidableEq, Repr

/-- One beat of the encoder's output port (R55). -/
structure EncOutBeat where
  last : Bool
  nchars : BitVec 3
  c0 : Byte
  c1 : Byte
  c2 : Byte
  c3 : Byte
deriving DecidableEq, Repr

/-- What a host can do to the blocks: the complete list of R138. -/
inductive HostAction where
  /-- Offer a beat word once, on the port its format names (R44: ENC_TRANSFER, DEC_ACCEPT). -/
  | present (w : BeatWord)
  /-- Take an output beat of the decoder, if it shows one (R44: DEC_DELIVER). -/
  | take
  /-- Drive `opt`, from now on, with this word (R21). -/
  | driveOpt (o : OptWord)
  /-- Assert `rst` for one edge of `clk` (R170; R44: DEC_RESET). -/
  | assertRst
deriving DecidableEq, Repr

/-- The whole machine. -/
structure State where
  /-- The decoder's registers `pend_cnt`, `pend0` to `pend2`, `pad_seen`, `failed` (R11). -/
  codec : Codec
  /-- The decoder's output queue, head first; at most two beats (R11, R15). -/
  oq : List DecOutBeat
  /-- The value the host drives on port `opt` (R21, R25). -/
  opt : OptWord
  /-- The producer and the consumer's actions still to come, in order (R44; log 1). -/
  schedule : List HostAction
  /-- The beats the encoder's consumer has received, oldest first (R44). -/
  encRecv : List EncOutBeat
  /-- The beats the decoder's consumer has received, oldest first (R44). -/
  decRecv : List DecOutBeat
  /-- The characters that look-ups of the table rows EncLUT have answered, oldest first (R81; log 5). -/
  lutOut : List Byte
deriving DecidableEq, Repr

/-- The machine right after reset, with nothing received and no host action to come: the decoder as R17 and R28 say
(`DecReset`); `opt` at 0, which the spec does not give (log 6). -/
def State.reset : State :=
  { codec := Codec.reset
    oq := []
    opt := 0#8
    schedule := []
    encRecv := []
    decRecv := []
    lutOut := [] }

/-- The reasons the machine stops with a fault: none. Every input on every port has a defined response (R64,
93_implementation_defined.md: "Nothing in this hardware is a stuck case"), and a failed decode is a value, not a stop
(R145). The type has no constructor, so no step can fault. -/
inductive Fault where
deriving DecidableEq, Repr

/-- The reasons a step has no meaning. -/
inductive Refusal where
  /-- An operation whose meaning is not written yet, by its mnemonic; raised by exec's arms alone. Safe. -/
  | notModelled (mnemonic : String)
  /-- The host offers a word that is no beat of any port (a bit where the port has no wire, or a length no port has);
  raised by step alone, from the decoder. Safe: no such word can stand on a port (R54, R56). -/
  | noSuchBeat (e : DecodeError)
deriving DecidableEq, Repr

end Sys2Proof.Machine
end

