-- ==== Sys2Proof/Machine/Flags.lean ====
section
/-! DEFINITION. The two flags of the hardware, `pad_seen` and `failed` (10_state.md R13, R14, R20), and the phase they
make (41_decoder.md R119). There are no arithmetic condition codes (R20). -/

namespace Sys2Proof.Machine

/-- `pad_seen <- 1` (R104). -/
def Codec.setPadSeen (c : Codec) : Codec := { c with padSeen := true }

/-- `failed <- 1` (R14). -/
def Codec.setFailed (c : Codec) : Codec := { c with failed := true }

/-- The three phases of the decoder's control state (R119). -/
inductive Phase where
  | data
  | padded
  | failed
deriving DecidableEq, Repr

/-- The phase of a codec state (R119). -/
def Codec.phase (c : Codec) : Phase :=
  if c.failed then .failed else if c.padSeen then .padded else .data

/-- `pend_cnt`, the number of pending sextets (R11, R12). -/
def Codec.pendCnt (c : Codec) : Nat := c.pend.length

end Sys2Proof.Machine
end

