-- ==== Sys2Proof/Machine/Ops.lean ====
section
/-! DEFINITION. The shared operations over the state: taking the decoder's one exception and leaving it
(60_exceptions.md R150, R154), the beat transfers of 20_memory.md R32 and R44, the ports as a host sees them (R24, R25),
and the words of output beats (R55, R58). -/

namespace Sys2Proof.Machine

/-- `raise InvalidInput` inside a lane operation: `failed <- 1`, and nothing else is saved or changed (R150). -/
def raiseInvalidInput (c : Codec) : Codec := c.setFailed

/-- Leaving the exception, and every message: `pend`, `pad_seen` and `failed` go back to their reset values, whether
the message failed or not (R154, R107, R16). -/
def leaveMessage (c : Codec) : Codec := { c with pend := [], padSeen := false, failed := false }

/-- A data beat: one packed group (R58, R108). -/
def dataBeat (g : Group) : DecOutBeat :=
  { last := false, err := false, kind := 0#1, count := 3#2, y0 := g.y0, y1 := g.y1, y2 := g.y2 }

/-- The END beat of a message that succeeded, with its tail (R58, R107). -/
def endBeat (count : BitVec 2) (y0 y1 : Byte) : DecOutBeat :=
  { last := true, err := false, kind := 0#1, count := count, y0 := y0, y1 := y1, y2 := 0#8 }

/-- The END beat of a message that failed: no bytes, and the kind alone (R58, R146, R148, R150). -/
def failBeat (k : ErrorKind) : DecOutBeat :=
  { last := true, err := true, kind := k.code, count := 0#2, y0 := 0#8, y1 := 0#8, y2 := 0#8 }

/-- `in_ready` of the decoder: 1 exactly when `oq` is empty (R25, R32). -/
def inReady (s : State) : Bool := s.oq.isEmpty

/-- `out_valid` of the decoder: 1 exactly when `oq` is not empty (R25, R32). -/
def outValid (s : State) : Bool := !s.oq.isEmpty

/-- The decoder's output fields: the head of `oq`. Without a head no beat is shown and the spec gives the fields no
value (R32, R46; log 7). -/
def outBeat (s : State) : Option DecOutBeat := s.oq.head?

/-- DEC_ACCEPT: the decoder's response to an offered beat, whose effect on the codec state and whose output beats are
`respond`. An offered beat is accepted only when `oq` is empty (R32, R44); one that is not accepted changes nothing
(R34). The whole response takes effect together (R33). -/
def acceptBeat (respond : Codec → Codec × List DecOutBeat) (s : State) : State :=
  if s.oq = [] then { s with codec := (respond s.codec).1, oq := (respond s.codec).2 } else s

/-- DEC_DELIVER: the consumer receives the head of `oq`, which is removed (R32, R44). With `oq` empty no beat is
shown and none is taken. -/
def deliver (s : State) : State :=
  match s.oq with
  | [] => s
  | b :: rest => { s with oq := rest, decRecv := s.decRecv ++ [b] }

/-- DEC_RESET: one edge of `clk` with `rst = 1`; undelivered beats are lost, and nothing outside the decoder changes
(R170, R171, R44). -/
def resetDecoder (s : State) : State := { s with codec := Codec.reset, oq := [] }

/-- The host drives `opt`; it is not registered (R21). -/
def setOpt (o : OptWord) (s : State) : State := { s with opt := o }

/-- ENC_TRANSFER: the encoder's output beat reaches its consumer together with the input beat; no state of a block
changes (R32, R44). -/
def transferEnc (b : EncOutBeat) (s : State) : State := { s with encRecv := s.encRecv ++ [b] }

/-- A look-up in the sextet-to-character table answers a character (R81; log 5). -/
def answerLut (c : Byte) (s : State) : State := { s with lutOut := s.lutOut ++ [c] }

/-- The output beat word of format `ENC_OUT`: `{last, nchars, c0, c1, c2, c3}` (R55). -/
def EncOutBeat.word (b : EncOutBeat) : BitVec 36 :=
  BitVec.ofBool b.last ++ b.nchars ++ b.c0 ++ b.c1 ++ b.c2 ++ b.c3

/-- The output beat word of format `DEC_OUT`: `{last, err, kind, count, y0, y1, y2}` (R58). -/
def DecOutBeat.word (b : DecOutBeat) : BitVec 29 :=
  BitVec.ofBool b.last ++ BitVec.ofBool b.err ++ b.kind ++ b.count ++ b.y0 ++ b.y1 ++ b.y2

/-- The valid characters of an encoder output beat, in lane order: lanes 0 to `nchars - 1` (R55). -/
def EncOutBeat.chars (b : EncOutBeat) : List Byte := [b.c0, b.c1, b.c2, b.c3].take b.nchars.toNat

/-- The valid bytes of a decoder output beat, in lane order: lanes 0 to `count - 1` (R58). -/
def DecOutBeat.bytes (b : DecOutBeat) : List Byte := [b.y0, b.y1, b.y2].take b.count.toNat

/-- The next action of the host, and the state that is left to it (R44). -/
def nextAction (s : State) : Option (HostAction × State) :=
  match s.schedule with
  | [] => none
  | a :: rest => some (a, { s with schedule := rest })

/-- The host's next action is to offer the beat word `w`. -/
def offerFirst (w : BeatWord) (s : State) : State := { s with schedule := .present w :: s.schedule }

end Sys2Proof.Machine
end

