-- ==== Sys2Proof/Machine/Decoder.lean ====
section
/-! DEFINITION. The decoder's lane operations DEC_NOP, DEC_SYM, DEC_PAD, DEC_INV, the operation DEC_END, and the beats
made of them (41_decoder.md R102 to R108). A lane operation returns the new codec state and the group it completed, if
any. A table row of format `DEC_LANE` is run as the beat that holds that one lane and nothing else (log 4). -/

namespace Sys2Proof.Machine

/-- DEC_NOP: the lane holds no unit; nothing is written (R102). -/
def laneNop (c : Codec) : Codec × Option Group := (c, none)

/-- DEC_SYM(v): a symbol after padding raises `InvalidInput` in both modes; else it is pushed, or as the fourth sextet
completes a group and is never stored (R103, R106). -/
def laneSym (v : Sextet) (c : Codec) : Codec × Option Group :=
  if c.failed then (c, none)
  else if c.padSeen then (raiseInvalidInput c, none)
  else
    match c.pend with
    | v0 :: v1 :: v2 :: _ => ({ c with pend := [] }, some (pack24 v0 v1 v2 v))
    | p => ({ c with pend := p ++ [v] }, none)

/-- DEC_PAD: the end of data is marked, in any number and at any place (R104, R106). -/
def lanePad (c : Codec) : Codec × Option Group :=
  if c.failed then (c, none) else (c.setPadSeen, none)

/-- DEC_INV: in skip-invalid mode the unit is discarded, in strict mode it raises `InvalidInput` (R105, R106). -/
def laneInv (skip : Bool) (c : Codec) : Codec × Option Group :=
  if c.failed then (c, none)
  else if skip then (c, none)
  else (raiseInvalidInput c, none)

/-- `DecLane`: the lane operation the lane's nine bits select (R108, R62). -/
def decLane (skip : Bool) (l : Lane) (c : Codec) : Codec × Option Group :=
  if l.keep then
    match decClass l.unit with
    | .sym v => laneSym v c
    | .pad => lanePad c
    | .inv => laneInv skip c
  else laneNop c

/-- The END beat of DEC_END, by the failed flag and the number of pending sextets (R107). -/
def endOf (c : Codec) : DecOutBeat :=
  if c.failed then failBeat .invalidInput
  else
    match c.pend with
    | [] => endBeat 0#2 0#8 0#8
    | [_] => failBeat .invalidInput
    | [v0, v1] => endBeat 1#2 (tail12 v0 v1) 0#8
    | v0 :: v1 :: v2 :: _ => endBeat 2#2 (tail18hi v0 v1 v2) (tail18lo v0 v1 v2)

/-- DEC_END: the END beat, and the codec state back at its reset values (R107). -/
def decEndOp (c : Codec) : Codec × DecOutBeat := (leaveMessage c, endOf c)

/-- The output beats of a lane operation: the data beat of a completed group (R108). -/
def beatsOf (g : Option Group) : List DecOutBeat :=
  match g with
  | none => []
  | some g => [dataBeat g]

/-- The lanes of one beat, folded left to right; each completed group emits its data beat (R108). -/
def decLanes (skip : Bool) : List Lane → Codec → Codec × List DecOutBeat
  | [], c => (c, [])
  | l :: ls, c =>
    let r := decLane skip l c
    let t := decLanes skip ls r.1
    (t.1, beatsOf r.2 ++ t.2)

/-- `DecBeat`, the response to one accepted beat: the four lanes, then DEC_END when `last = 1` (R108). -/
def decBeat (skip : Bool) (last : Bool) (ls : List Lane) (c : Codec) : Codec × List DecOutBeat :=
  let r := decLanes skip ls c
  if last then ((decEndOp r.1).1, r.2 ++ [(decEndOp r.1).2]) else r

/-- A beat that holds one lane operation and nothing else. -/
def oneLane (op : Codec → Codec × Option Group) (c : Codec) : Codec × List DecOutBeat :=
  ((op c).1, beatsOf (op c).2)

/-- DEC_NOP as a beat of its own (R102). -/
def execDecNop (_u : Byte) (s : State) : Host.Outcome State Fault Refusal :=
  .next (acceptBeat (oneLane laneNop) s)

/-- DEC_SYM(v) as a beat of its own (R103). -/
def execDecSym (v : Sextet) (s : State) : Host.Outcome State Fault Refusal :=
  .next (acceptBeat (oneLane (laneSym v)) s)

/-- DEC_PAD as a beat of its own (R104). -/
def execDecPad (s : State) : Host.Outcome State Fault Refusal :=
  .next (acceptBeat (oneLane lanePad) s)

/-- DEC_INV as a beat of its own, under the options word presented with it (R105, R21). -/
def execDecInv (_u : Byte) (s : State) : Host.Outcome State Fault Refusal :=
  .next (acceptBeat (oneLane (laneInv (skipOf s.opt))) s)

/-- DECB: a beat with `last = 0`, under the options word presented with it (R108, R21). -/
def execDecb (l0 l1 l2 l3 : Lane) (s : State) : Host.Outcome State Fault Refusal :=
  .next (acceptBeat (decBeat (skipOf s.opt) false [l0, l1, l2, l3]) s)

/-- DEC_END: a beat with `last = 1`, written `DECB.L` (R107, R108, R21). -/
def execDecEnd (l0 l1 l2 l3 : Lane) (s : State) : Host.Outcome State Fault Refusal :=
  .next (acceptBeat (decBeat (skipOf s.opt) true [l0, l1, l2, l3]) s)

end Sys2Proof.Machine
end

