-- ==== Sys2Proof/Machine/Encoder.lean ====
section
/-! DEFINITION. The encoder's operations ENC0 to ENC3 (40_encoder.md R82 to R86) and the look-up EncLUT (R81). The
encoder writes no flag and raises no exception, ever (R145); `last` is copied (R86). -/

namespace Sys2Proof.Machine

/-- ENC3: full group, three bytes to four symbols (R82). -/
def enc3Out (last : Bool) (b0 b1 b2 : Byte) : EncOutBeat :=
  let v := regroup24 b0 b1 b2
  { last := last, nchars := 4#3, c0 := encLut v.s0, c1 := encLut v.s1, c2 := encLut v.s2, c3 := encLut v.s3 }

/-- ENC2: partial group, two bytes to three symbols and `=`; the missing byte is taken as zero (R83, R63). -/
def enc2Out (last : Bool) (b0 b1 : Byte) : EncOutBeat :=
  let v := regroup24 b0 b1 0#8
  { last := last, nchars := 4#3, c0 := encLut v.s0, c1 := encLut v.s1, c2 := encLut v.s2, c3 := padChar }

/-- ENC1: partial group, one byte to two symbols and `==`; the missing bytes are taken as zero (R84, R63). -/
def enc1Out (last : Bool) (b0 : Byte) : EncOutBeat :=
  let v := regroup24 b0 0#8 0#8
  { last := last, nchars := 4#3, c0 := encLut v.s0, c1 := encLut v.s1, c2 := padChar, c3 := padChar }

/-- ENC0: empty beat, no characters; all four character lanes are 0x00 (R85, R55). -/
def enc0Out (last : Bool) : EncOutBeat :=
  { last := last, nchars := 0#3, c0 := 0#8, c1 := 0#8, c2 := 0#8, c3 := 0#8 }

/-- `EncBeat`, the whole block as one function of its input fields (R86, R10). -/
def encBeat (last : Bool) (count : BitVec 2) (b0 b1 b2 : Byte) : EncOutBeat :=
  if count = 3#2 then enc3Out last b0 b1 b2
  else if count = 2#2 then enc2Out last b0 b1
  else if count = 1#2 then enc1Out last b0
  else enc0Out last

/-- ENC3 (R82). -/
def execEnc3 (last : Bool) (b0 b1 b2 : Byte) (s : State) : Host.Outcome State Fault Refusal :=
  .next (transferEnc (enc3Out last b0 b1 b2) s)

/-- ENC2; byte lane 2 is ignored (R83). -/
def execEnc2 (last : Bool) (b0 b1 _b2 : Byte) (s : State) : Host.Outcome State Fault Refusal :=
  .next (transferEnc (enc2Out last b0 b1) s)

/-- ENC1; byte lanes 1 and 2 are ignored (R84). -/
def execEnc1 (last : Bool) (b0 _b1 _b2 : Byte) (s : State) : Host.Outcome State Fault Refusal :=
  .next (transferEnc (enc1Out last b0) s)

/-- ENC0; all three byte lanes are ignored (R85). -/
def execEnc0 (last : Bool) (_b0 _b1 _b2 : Byte) (s : State) : Host.Outcome State Fault Refusal :=
  .next (transferEnc (enc0Out last) s)

/-- EncLUT: one look-up in the sextet-to-character table answers the symbol's code (R81; log 5). -/
def execEncLut (v : Sextet) (s : State) : Host.Outcome State Fault Refusal :=
  .next (answerLut (encLut v) s)

end Sys2Proof.Machine
end

