-- ==== Sys2Proof/Machine/Dispatch.lean ====
section
/-! DEFINITION. One arm per operation, each one direct call of its meaning. -/

namespace Sys2Proof.Machine

/-- What an operation does to the machine. -/
def exec (i : Instr) (s : State) : Host.Outcome State Fault Refusal :=
  match i with
  | .enc0 last b0 b1 b2 => Sys2Proof.Machine.execEnc0 last b0 b1 b2 s
  | .enc1 last b0 b1 b2 => Sys2Proof.Machine.execEnc1 last b0 b1 b2 s
  | .enc2 last b0 b1 b2 => Sys2Proof.Machine.execEnc2 last b0 b1 b2 s
  | .enc3 last b0 b1 b2 => Sys2Proof.Machine.execEnc3 last b0 b1 b2 s
  | .decNop u => Sys2Proof.Machine.execDecNop u s
  | .decSym v => Sys2Proof.Machine.execDecSym v s
  | .decPad => Sys2Proof.Machine.execDecPad s
  | .decInv u => Sys2Proof.Machine.execDecInv u s
  | .decb l0 l1 l2 l3 => Sys2Proof.Machine.execDecb l0 l1 l2 l3 s
  | .decEnd l0 l1 l2 l3 => Sys2Proof.Machine.execDecEnd l0 l1 l2 l3 s
  | .encLut v => Sys2Proof.Machine.execEncLut v s

end Sys2Proof.Machine
end

