-- ==== Sys2Proof/Machine/Perform.lean ====
section
/-! DEFINITION. What each action of the host does to the machine (42_host_operations.md R138, 20_memory.md R44). -/

namespace Sys2Proof.Machine

/-- One action of the host. A beat word is decoded and its operation run; a word that is no beat is refused by name. -/
def perform (a : HostAction) (s : State) : Host.Outcome State Fault Refusal :=
  match a with
  | .present w =>
    match decode w with
    | .ok i => exec i s
    | .error e => .refused (.noSuchBeat e)
  | .take => .next (deliver s)
  | .driveOpt o => .next (setOpt o s)
  | .assertRst => .next (resetDecoder s)

end Sys2Proof.Machine
end

