-- ==== Sys2Proof/Machine/Step.lean ====
section
/-! DEFINITION. The step of the transaction-level machine (20_memory.md R44): the blocks never act on their own; every
step is the host's next action. -/

namespace Sys2Proof.Machine

/-- One step: the host's next action is taken off the schedule and performed. With no action to come the blocks hold
their state (R44, R163). -/
def step (s : State) : Host.Outcome State Fault Refusal :=
  match nextAction s with
  | none => .next s
  | some (a, s') => perform a s'

/-- `s` with the table word offered as the host's very next action (log 2). -/
def State.withFetchWord (s : State) (nbits w : Nat) : State :=
  offerFirst { nbits := nbits, bits := w } s

end Sys2Proof.Machine
end

