-- ==== Sys2Proof/Machine/Message.lean ====
section
/-! DEFINITION. Messages: the functions `Encode` and `Decode` of the document (40_encoder.md R87, 41_decoder.md R109),
the framing a host must keep (20_memory.md R38, R39), and the host's procedures around the two blocks
(42_host_operations.md R130, R131, R133, R135, R136), and which beats the decoder accepts in a run (20_memory.md R44).
Nothing here is state of the machine. -/

namespace Sys2Proof.Machine

/-- `Encode`, groups of three bytes with a partial group only at the end (R87). -/
def encodeText : List Byte → List Byte
  | [] => []
  | [b0] => (enc1Out true b0).chars
  | [b0, b1] => (enc2Out true b0 b1).chars
  | b0 :: b1 :: b2 :: rest => (enc3Out false b0 b1 b2).chars ++ encodeText rest

/-- The bytes of a completed group, if any. -/
def bytesOf (g : Option Group) : List Byte :=
  match g with
  | none => []
  | some g => [g.y0, g.y1, g.y2]

/-- The units of a message folded through the lane operations: the codec state they leave and the bytes of the groups
they complete (R109). -/
def decodeUnits (skip : Bool) : List Byte → Codec → Codec × List Byte
  | [], c => (c, [])
  | u :: us, c =>
    let r := decLane skip { keep := true, unit := u } c
    let t := decodeUnits skip us r.1
    (t.1, bytesOf r.2 ++ t.2)

/-- `Decode` (R109): bytes, or a failure that carries its kind and nothing else. -/
def decodeText (us : List Byte) (skip : Bool) : Except ErrorKind (List Byte) :=
  let r := decodeUnits skip us Codec.reset
  let e := endOf r.1
  if e.err then .error .invalidInput else .ok (r.2 ++ e.bytes)

/-- A unit is an alphabet symbol (R53). -/
def isSym (u : Byte) : Bool :=
  match decClass u with
  | .sym _ => true
  | .pad => false
  | .inv => false

/-- A unit is of class INV (R53). -/
def isInv (u : Byte) : Bool := decClass u == .inv

/-- Some symbol stands after some padding unit (R146, cause X2). -/
def symAfterPad : List Byte → Bool
  | [] => false
  | u :: us => (decClass u == .pad && us.any isSym) || symAfterPad us

/-- The input fields of one encoder beat (R54). -/
structure EncIn where
  last : Bool
  count : BitVec 2
  b0 : Byte
  b1 : Byte
  b2 : Byte
deriving DecidableEq, Repr

/-- The input fields of one decoder beat (R56). -/
structure DecIn where
  last : Bool
  l0 : Lane
  l1 : Lane
  l2 : Lane
  l3 : Lane
deriving DecidableEq, Repr

/-- The beat word of an encoder beat (R54). -/
def EncIn.word (b : EncIn) : BeatWord := encInWord b.last b.count b.b0 b.b1 b.b2

/-- The encoder's output beat for an input beat (R86). -/
def EncIn.out (b : EncIn) : EncOutBeat := encBeat b.last b.count b.b0 b.b1 b.b2

/-- The valid bytes of an encoder beat, lanes 0 to `count - 1` (R54, R180). -/
def EncIn.bytes (b : EncIn) : List Byte := [b.b0, b.b1, b.b2].take b.count.toNat

/-- The beat word of a decoder beat (R56). -/
def DecIn.word (b : DecIn) : BeatWord := decInWord b.last b.l0 b.l1 b.l2 b.l3

/-- The lanes of a decoder beat in lane order (R36). -/
def DecIn.lanes (b : DecIn) : List Lane := [b.l0, b.l1, b.l2, b.l3]

/-- The units of a decoder beat: those of the lanes whose keep bit is 1, in lane order (R39, R180). -/
def DecIn.units (b : DecIn) : List Byte := (b.lanes.filter (·.keep)).map (·.unit)

/-- The framing of an encoder message: every beat but the final one is a full group that is not last (R38). -/
def encFramed : List EncIn → Bool
  | [] => false
  | [b] => b.last
  | b :: bs => !b.last && b.count == 3#2 && encFramed bs

/-- The framing of a decoder message: the final beat, and no other, is last (R39). -/
def decFramed : List DecIn → Bool
  | [] => false
  | [b] => b.last
  | b :: bs => !b.last && decFramed bs

/-- The result of an encode message: the valid characters up to and including the beat with `out_last = 1` (R131). -/
def encResult : List EncOutBeat → Option (List Byte)
  | [] => none
  | b :: bs => if b.last then some b.chars else (encResult bs).map (b.chars ++ ·)

/-- The result of a decode message (R133): the valid bytes up to and including the END beat, all of them discarded
when that beat reports a failure (R151). With no END beat there is no result. -/
def decResult : List DecOutBeat → Option (Except ErrorKind (List Byte))
  | [] => none
  | b :: bs =>
    if b.last then some (if b.err then .error (ErrorKind.ofCode b.kind) else .ok b.bytes)
    else (decResult bs).map (fun r => r.map (b.bytes ++ ·))

/-- The host's beats for `encode(B)` (R131). -/
def hostEncodeBeats : List Byte → List EncIn
  | [] => [{ last := true, count := 0#2, b0 := 0#8, b1 := 0#8, b2 := 0#8 }]
  | [b0] => [{ last := true, count := 1#2, b0 := b0, b1 := 0#8, b2 := 0#8 }]
  | [b0, b1] => [{ last := true, count := 2#2, b0 := b0, b1 := b1, b2 := 0#8 }]
  | [b0, b1, b2] => [{ last := true, count := 3#2, b0 := b0, b1 := b1, b2 := b2 }]
  | b0 :: b1 :: b2 :: b3 :: rest =>
    { last := false, count := 3#2, b0 := b0, b1 := b1, b2 := b2 } :: hostEncodeBeats (b3 :: rest)

/-- A lane that holds a unit. -/
def unitLane (u : Byte) : Lane := { keep := true, unit := u }

/-- A lane that holds none, written as unit 00 (R67). -/
def noLane : Lane := { keep := false, unit := 0#8 }

/-- The host's beats for `decode(U, options)`: four units to a beat, lanes filled from lane 0 (R133). -/
def hostDecodeBeats : List Byte → List DecIn
  | [] => [{ last := true, l0 := noLane, l1 := noLane, l2 := noLane, l3 := noLane }]
  | [u0] => [{ last := true, l0 := unitLane u0, l1 := noLane, l2 := noLane, l3 := noLane }]
  | [u0, u1] => [{ last := true, l0 := unitLane u0, l1 := unitLane u1, l2 := noLane, l3 := noLane }]
  | [u0, u1, u2] => [{ last := true, l0 := unitLane u0, l1 := unitLane u1, l2 := unitLane u2, l3 := noLane }]
  | [u0, u1, u2, u3] => [{ last := true, l0 := unitLane u0, l1 := unitLane u1, l2 := unitLane u2, l3 := unitLane u3 }]
  | u0 :: u1 :: u2 :: u3 :: u4 :: rest =>
    { last := false, l0 := unitLane u0, l1 := unitLane u1, l2 := unitLane u2, l3 := unitLane u3 } :: hostDecodeBeats (u4 :: rest)

/-- A host that sends encoder beats one after another (R44). -/
def sendEnc (bs : List EncIn) : List HostAction := bs.map (fun b => .present b.word)

/-- A host that sends a decoder beat and takes the at most two output beats it owes (R15, R44). -/
def sendDec (bs : List DecIn) : List HostAction := bs.flatMap (fun b => [.present b.word, .take, .take])

/-- The host's procedure for `encode(B)` (R131). -/
def hostEncode (bytes : List Byte) : List HostAction := sendEnc (hostEncodeBeats bytes)

/-- The low 8 bits of the host's options value go on `opt`; what is wider is dropped (R133, R136). -/
def hostOpt (options : Nat) : OptWord := BitVec.ofNat 8 options

/-- The host's procedure for `decode(U, options)`: `opt` is held for the whole message (R133, R176). -/
def hostDecode (units : List Byte) (options : Nat) : List HostAction :=
  .driveOpt (hostOpt options) :: sendDec (hostDecodeBeats units)

/-- What the convenience forms answer, from the result of a strict decode: the empty byte sequence for a failure
(R135, decision D27). -/
def convenience (r : Except ErrorKind (List Byte)) : List Byte :=
  match r with
  | .ok ys => ys
  | .error _ => []

/-- The host's procedure for the convenience forms: that of R133 with `opt = 0x00`, strict mode (R135). -/
def hostDecodeStrict (units : List Byte) : List HostAction := hostDecode units 0x00

/-- The result of a convenience form, from the beats its consumer received (R135). -/
def strictResult (os : List DecOutBeat) : Option (List Byte) := (decResult os).map convenience

/-! ### The six public operations -/

/-- The six public operations, in the order of R130's table. A text is its list of 8-bit units (R37, R134). -/
inductive PublicOp where
  | encodeToText (bytes : List Byte)
  | encodeToBytes (bytes : List Byte)
  | decodeFromText (units : List Byte) (options : Nat)
  | decodeFromBytes (units : List Byte) (options : Nat)
  | decodeFromTextStrict (units : List Byte)
  | decodeFromBytesStrict (units : List Byte)
deriving DecidableEq, Repr

/-- What a public operation answers: text or bytes, or bytes and an error, where an error leaves no bytes (R130, R151). -/
inductive PublicResult where
  | units (ys : List Byte)
  | unitsOrError (r : Except ErrorKind (List Byte))
deriving DecidableEq, Repr

/-- The block a public operation uses is the encoder; else it is the decoder (R130). -/
def PublicOp.usesEncoder : PublicOp → Bool
  | .encodeToText _ => true
  | .encodeToBytes _ => true
  | .decodeFromText _ _ => false
  | .decodeFromBytes _ _ => false
  | .decodeFromTextStrict _ => false
  | .decodeFromBytesStrict _ => false

/-- What the host does at the ports for a public operation: one encode message or one decode message (R130). -/
def PublicOp.actions : PublicOp → List HostAction
  | .encodeToText bytes => hostEncode bytes
  | .encodeToBytes bytes => hostEncode bytes
  | .decodeFromText units options => hostDecode units options
  | .decodeFromBytes units options => hostDecode units options
  | .decodeFromTextStrict units => hostDecodeStrict units
  | .decodeFromBytesStrict units => hostDecodeStrict units

/-- The result of a public operation, from the beats the block's consumer received for it: the last column of R130. -/
def PublicOp.result (op : PublicOp) (es : List EncOutBeat) (ds : List DecOutBeat) : Option PublicResult :=
  match op with
  | .encodeToText _ => (encResult es).map .units
  | .encodeToBytes _ => (encResult es).map .units
  | .decodeFromText _ _ => (decResult ds).map .unitsOrError
  | .decodeFromBytes _ _ => (decResult ds).map .unitsOrError
  | .decodeFromTextStrict _ => (strictResult ds).map .units
  | .decodeFromBytesStrict _ => (strictResult ds).map .units

/-! ### The beats a run accepts -/

/-- The beat that holds one lane and nothing else (log 4). -/
def oneLaneIn (l : Lane) : DecIn := { last := false, l0 := l, l1 := noLane, l2 := noLane, l3 := noLane }

/-- The decoder beat an operation stands for, if it is one of the decoder's (R62, R108; log 4 for the lane rows). -/
def decInOf : Instr → Option DecIn
  | .enc0 _ _ _ _ => none
  | .enc1 _ _ _ _ => none
  | .enc2 _ _ _ _ => none
  | .enc3 _ _ _ _ => none
  | .decNop u => some (oneLaneIn { keep := false, unit := u })
  | .decSym v => some (oneLaneIn (unitLane (encLut v)))
  | .decPad => some (oneLaneIn (unitLane padChar))
  | .decInv u => some (oneLaneIn (unitLane u))
  | .decb l0 l1 l2 l3 => some { last := false, l0 := l0, l1 := l1, l2 := l2, l3 := l3 }
  | .decEnd l0 l1 l2 l3 => some { last := true, l0 := l0, l1 := l1, l2 := l2, l3 := l3 }
  | .encLut _ => none

/-- The beat an action of the host makes the decoder accept, with the options word presented beside it: an offered
decoder beat is accepted exactly when the decoder is ready (R32, R44: DEC_ACCEPT). -/
def acceptedOf (a : HostAction) (s : State) : Option (DecIn × OptWord) :=
  match a with
  | .present w =>
    match decode w with
    | .ok i => if inReady s then (decInOf i).map (fun b => (b, s.opt)) else none
    | .error _ => none
  | .take => none
  | .driveOpt _ => none
  | .assertRst => none

/-- The beats the decoder accepts in the next `n` steps, in order, each with its options word (R44: "a run is a
sequence of such steps"). -/
def acceptedBeats : Nat → State → List (DecIn × OptWord)
  | 0, _ => []
  | n + 1, s =>
    (match nextAction s with
      | none => []
      | some (a, s') => (acceptedOf a s').toList)
    ++ match step s with
      | .next t => acceptedBeats n t
      | .fault _ => []
      | .refused _ => []

/-- The action leaves the message in progress: it is no reset, and a word it offers is a beat of some port. -/
def HostAction.continues : HostAction → Bool
  | .present w =>
    match decode w with
    | .ok _ => true
    | .error _ => false
  | .take => true
  | .driveOpt _ => true
  | .assertRst => false

/-- The response of the decoder to a sequence of accepted beats under one value of `opt[0]`: the codec state passes
from beat to beat, and the output beats follow one another (R108, R40). -/
def decBeats (skip : Bool) : List DecIn → Codec → Codec × List DecOutBeat
  | [], c => (c, [])
  | b :: bs, c =>
    let r := decBeat skip b.last b.lanes c
    let t := decBeats skip bs r.1
    (t.1, r.2 ++ t.2)

end Sys2Proof.Machine
end

