-- ==== Sys2Proof/Machine/Ports.lean ====
section
/-! DEFINITION. The two blocks at their ports (10_state.md R24, R25, 20_memory.md R32): the encoder as the
combinational function of its input ports, the decoder's output ports as a function of its state, and the decoder's
response to one rising edge of `clk`. The machine's step is the transaction-level machine of R44; nothing of it is
defined by this file. -/

namespace Sys2Proof.Machine

/-- The input ports of `base64_encoder` (R24). -/
structure EncPortsIn where
  inValid : Bool
  inData : BitVec 24
  inCount : BitVec 2
  inLast : Bool
  outReady : Bool
deriving DecidableEq, Repr

/-- The output ports of `base64_encoder` (R24). -/
structure EncPortsOut where
  inReady : Bool
  outValid : Bool
  outChars : BitVec 32
  outNchars : BitVec 3
  outLast : Bool
deriving DecidableEq, Repr

/-- `base64_encoder`: its outputs in a cycle are a function of its inputs in that cycle (R10, R24, R32, R46). -/
def encPorts (p : EncPortsIn) : EncPortsOut :=
  let o := encBeat p.inLast p.inCount (p.inData.extractLsb' 16 8) (p.inData.extractLsb' 8 8) (p.inData.extractLsb' 0 8)
  { inReady := p.outReady
    outValid := p.inValid
    outChars := o.c0 ++ o.c1 ++ o.c2 ++ o.c3
    outNchars := o.nchars
    outLast := o.last }

/-- The input ports of `base64_decoder` as one rising edge of `clk` sees them (R25). -/
structure DecPortsIn where
  rst : Bool
  inValid : Bool
  inUnits : BitVec 32
  inKeep : BitVec 4
  inLast : Bool
  opt : OptWord
  outReady : Bool
deriving DecidableEq, Repr

/-- The fields of the decoder's output port (R25). -/
structure DecFields where
  outBytes : BitVec 24
  outCount : BitVec 2
  outLast : Bool
  outErr : Bool
  outKind : KindCode
deriving DecidableEq, Repr

/-- The output ports of `base64_decoder` (R25). `fields` is none while `out_valid = 0`: the spec gives the output
fields no value then (log 7). -/
structure DecPortsOut where
  inReady : Bool
  outValid : Bool
  fields : Option DecFields
deriving DecidableEq, Repr

/-- The four lanes of an input beat: `in_keep[3]` and `in_units[31:24]` are lane 0 (R25, R56). -/
def DecPortsIn.lane0 (p : DecPortsIn) : Lane := { keep := p.inKeep.getLsbD 3, unit := p.inUnits.extractLsb' 24 8 }
def DecPortsIn.lane1 (p : DecPortsIn) : Lane := { keep := p.inKeep.getLsbD 2, unit := p.inUnits.extractLsb' 16 8 }
def DecPortsIn.lane2 (p : DecPortsIn) : Lane := { keep := p.inKeep.getLsbD 1, unit := p.inUnits.extractLsb' 8 8 }
def DecPortsIn.lane3 (p : DecPortsIn) : Lane := { keep := p.inKeep.getLsbD 0, unit := p.inUnits.extractLsb' 0 8 }

/-- The beat on the input port as a word of format `DEC_IN` (R56). -/
def DecPortsIn.beatWord (p : DecPortsIn) : BeatWord := decInWord p.inLast p.lane0 p.lane1 p.lane2 p.lane3

/-- The decoder's output ports in a state: they show the head of `oq` (R25, R32). -/
def decPorts (s : State) : DecPortsOut :=
  { inReady := inReady s
    outValid := outValid s
    fields := (outBeat s).map fun b =>
      { outBytes := b.y0 ++ b.y1 ++ b.y2, outCount := b.count, outLast := b.last, outErr := b.err, outKind := b.kind } }

/-- The decoder at one rising edge of `clk` (R32, R170): reset first; else an offered beat is accepted when `oq` is
empty, or the shown beat is delivered when the consumer is ready; else the state is held (R163). -/
def clockEdge (p : DecPortsIn) (s : State) : State :=
  let s := setOpt p.opt s
  if p.rst then resetDecoder s
  else if p.inValid && inReady s then
    acceptBeat (decBeat (skipOf p.opt) p.inLast [p.lane0, p.lane1, p.lane2, p.lane3]) s
  else if p.outReady && outValid s then deliver s
  else s

end Sys2Proof.Machine
end

