-- ==== Sys2Proof/Safety.lean ====
section
/-! DEFINITION. What counts as a safe state: the bounds of the decoder's buffers (10_state.md R12, R15), the shapes of
the output beats (30_encoding.md R55, R58), and that a message whose END beat is out has left no trace in the codec
state (R16). -/

namespace Sys2Proof.Machine

/-- The beat is a data beat (R58, first shape). -/
def DecOutBeat.isData (b : DecOutBeat) : Bool := !b.last && !b.err && b.kind == 0#1 && b.count == 3#2

/-- The beat is the END beat of a message that succeeded, with lanes that are not valid at 0x00 (R58, second shape). -/
def DecOutBeat.isEndOk (b : DecOutBeat) : Bool :=
  b.last && !b.err && b.kind == 0#1 && b.count != 3#2 && b.y2 == 0#8 && (b.count == 2#2 || b.y1 == 0#8)
    && (b.count != 0#2 || b.y0 == 0#8)

/-- The beat is the END beat of a message that failed: `InvalidInput`, no bytes (R58, third shape). -/
def DecOutBeat.isEndFail (b : DecOutBeat) : Bool :=
  b.last && b.err && b.kind == Config.kindInvalidInput && b.count == 0#2 && b.y0 == 0#8 && b.y1 == 0#8 && b.y2 == 0#8

/-- "Only these shapes occur" (R58). -/
def DecOutBeat.legal (b : DecOutBeat) : Bool := b.isData || b.isEndOk || b.isEndFail

/-- A character the encoder may emit: one of the 64 symbols or `=` (R92). -/
def isText (c : Byte) : Bool := !isInv c

/-- `nchars` is 4, with characters of the text alphabet in all lanes, or 0, with all lanes at 0x00 (R55, R92). -/
def EncOutBeat.legal (b : EncOutBeat) : Bool :=
  (b.nchars == 4#3 && isText b.c0 && isText b.c1 && isText b.c2 && isText b.c3)
    || (b.nchars == 0#3 && b.c0 == 0#8 && b.c1 == 0#8 && b.c2 == 0#8 && b.c3 == 0#8)

/-- The beat would report a failure of the kind Unknown (R147). -/
def DecOutBeat.reportsUnknown (b : DecOutBeat) : Bool := b.err && ErrorKind.ofCode b.kind == .unknown

/-- The state's invariant. -/
abbrev State.Inv (s : State) : Prop :=
  s.codec.pend.length ≤ Config.pendDepth
    ∧ s.oq.length ≤ Config.oqDepth
    ∧ (∀ b ∈ s.oq, b.legal = true)
    ∧ (∀ b ∈ s.decRecv, b.legal = true)
    ∧ (∀ b ∈ s.encRecv, b.legal = true)
    ∧ (∀ b ∈ s.oq, b.last = true → s.codec = Codec.reset ∧ s.oq.getLast? = some b)

end Sys2Proof.Machine
end

