-- ==== Sys2Proof/Certificates/Slice0/Obligations.lean ====
section
/-! DEFINITION. The statements for the provers. Each docstring names the rule of the spec it formalises. Statements of
an operation's effect are equations `exec i s = .next t`, so they say at once that the operation completes, what it
writes, and that it writes nothing else. -/

open Sys2Proof Sys2Proof.Machine

/-! ### Steps and encodings -/

/-- A step whose next action offers a beat word that decodes runs the decoded operation, on the state with that action
taken off the schedule (20_memory.md R44). -/
def Obligations.StepRunsDecodedBeat : Prop :=
  ∀ (s : State) (w : BeatWord) (rest : List HostAction) (i : Instr),
    s.schedule = .present w :: rest → decode w = .ok i → step s = exec i { s with schedule := rest }

/-- What every other step does: the host takes an output beat (the head of `oq`, if there is one: 20_memory.md R32),
drives `opt`, asserts `rst`, offers a word that is no beat, or does nothing (42_host_operations.md R138, 20_memory.md
R44). That a word which is no beat is refused, and that an idle machine steps to itself, is the model's (log 1, log 3). -/
def Obligations.StepPerformsOtherActions : Prop :=
  ∀ (s : State) (rest : List HostAction),
    (∀ b bs, s.schedule = .take :: rest → s.oq = b :: bs →
      step s = .next { s with schedule := rest, oq := bs, decRecv := s.decRecv ++ [b] })
    ∧ (s.schedule = .take :: rest → s.oq = [] → step s = .next { s with schedule := rest })
    ∧ (∀ o, s.schedule = .driveOpt o :: rest → step s = .next { s with schedule := rest, opt := o })
    ∧ (s.schedule = .assertRst :: rest → step s = .next { s with schedule := rest, codec := Codec.reset, oq := [] })
    ∧ (∀ w e, s.schedule = .present w :: rest → decode w = .error e → step s = .refused (.noSuchBeat e))
    ∧ (s.schedule = [] → step s = .next s)

/-- Decoding the beat word of a well-formed operation gives the operation back, with every operand. -/
def Obligations.DecodeEncodeAgree : Prop :=
  ∀ i : Instr, i.wellFormed = true → decode (encode i) = .ok i

/-- A word that decodes gives a well-formed operation of the word's format, whose own beat word is that word. -/
def Obligations.EncodeDecodeAgree : Prop :=
  ∀ (w : BeatWord) (i : Instr), decode w = .ok i →
    i.wellFormed = true ∧ (encode i).bits = w.bits ∧ Format.ofBits w.nbits = some i.format

/-- Words of the spec's own vectors (95_test_vectors.md) and of spec/opcode_table.json decode to what they stand for. -/
def Obligations.SpecWordsDecode : Prop :=
  decode { nbits := 32, bits := 0x74D616E } = .ok (.enc3 true 0x4D#8 0x61#8 0x6E#8)
  ∧ decode { nbits := 32, bits := 0x64D61FF } = .ok (.enc2 true 0x4D#8 0x61#8 0xFF#8)
  ∧ decode { nbits := 32, bits := 0x54DAA55 } = .ok (.enc1 true 0x4D#8 0xAA#8 0x55#8)
  ∧ decode { nbits := 32, bits := 0x0000000 } = .ok (.enc0 false 0#8 0#8 0#8)
  ∧ decode { nbits := 16, bits := 0x12B } = .ok (.decSym 62#6)
  ∧ decode { nbits := 16, bits := 0x13D } = .ok .decPad
  ∧ decode { nbits := 16, bits := 0x100 } = .ok (.decInv 0#8)
  ∧ decode { nbits := 16, bits := 0x054 } = .ok (.decNop 0x54#8)
  ∧ decode { nbits := 40, bits := 0x0A54005700 } =
      .ok (.decb { keep := true, unit := 0x54#8 } { keep := false, unit := 0#8 }
        { keep := true, unit := 0x57#8 } { keep := false, unit := 0#8 })
  ∧ decode { nbits := 40, bits := 0x1500460075 } =
      .ok (.decEnd { keep := false, unit := 0#8 } { keep := true, unit := 0x46#8 }
        { keep := false, unit := 0#8 } { keep := true, unit := 0x75#8 })
  ∧ decode { nbits := 8, bits := 0x3F } = .ok (.encLut 63#6)

/-- "Every input bit pattern on every port has a defined result" (30_encoding.md R64): every operation completes in
every state, and every word that fits a format decodes, so that offered to any state it is performed, with no fault and
no refusal. -/
def Obligations.EveryPatternHasAResult : Prop :=
  (∀ (i : Instr) (s : State), ∃ t, exec i s = .next t)
  ∧ ∀ (f : Format) (n : Nat) (s : State), n < 2 ^ f.width →
      ∃ t, perform (.present { nbits := f.tableBits, bits := n }) s = .next t

/-! ### The tables -/

/-- The alphabet (30_encoding.md R50): the character of value `k` is the one at position `k` of the listing `A` to `Z`,
`a` to `z`, `0` to `9`, `+`, `/`, in ASCII. -/
def Obligations.AlphabetIsTheListing : Prop :=
  (List.range 64).map (fun k => (encLut (BitVec.ofNat 6 k)).toNat) =
    (List.range 26).map (· + 0x41) ++ (List.range 26).map (· + 0x61) ++ (List.range 10).map (· + 0x30) ++ [0x2B, 0x2F]

/-- The classes of the 256 unit values (30_encoding.md R53), row by row of the rule's table, and their counts. -/
def Obligations.UnitClasses : Prop :=
  (∀ u : Byte,
    (u = 0x2B#8 → decClass u = .sym 62#6)
    ∧ (u = 0x2F#8 → decClass u = .sym 63#6)
    ∧ (0x30#8 ≤ u → u ≤ 0x39#8 → decClass u = .sym (BitVec.ofNat 6 (u.toNat - 0x30 + 52)))
    ∧ (u = 0x3D#8 → decClass u = .pad)
    ∧ (0x41#8 ≤ u → u ≤ 0x5A#8 → decClass u = .sym (BitVec.ofNat 6 (u.toNat - 0x41)))
    ∧ (0x61#8 ≤ u → u ≤ 0x7A#8 → decClass u = .sym (BitVec.ofNat 6 (u.toNat - 0x61 + 26)))
    ∧ (u ≤ 0x2A#8 ∨ (0x2C#8 ≤ u ∧ u ≤ 0x2E#8) ∨ (0x3A#8 ≤ u ∧ u ≤ 0x3C#8) ∨ (0x3E#8 ≤ u ∧ u ≤ 0x40#8)
        ∨ (0x5B#8 ≤ u ∧ u ≤ 0x60#8) ∨ 0x7B#8 ≤ u → decClass u = .inv))
  ∧ ((List.range 256).filter (fun n => isSym (BitVec.ofNat 8 n))).length = 64
  ∧ ((List.range 256).filter (fun n => decClass (BitVec.ofNat 8 n) == .pad)).length = 1
  ∧ ((List.range 256).filter (fun n => isInv (BitVec.ofNat 8 n))).length = 191

/-- The padding symbol (30_encoding.md R51) and the invariants of the alphabet (R52): distinct codes, none of them the
padding symbol's 0x3D, each table the inverse of the other, all 65 codes below 0x80, and `-` and `_` invalid. -/
def Obligations.AlphabetInvariants : Prop :=
  padChar = 0x3D#8
  ∧ (∀ v w : Sextet, encLut v = encLut w → v = w)
  ∧ (∀ v : Sextet, encLut v ≠ 0x3D#8)
  ∧ (∀ v : Sextet, decClass (encLut v) = .sym v)
  ∧ (∀ (u : Byte) (v : Sextet), decClass u = .sym v → encLut v = u)
  ∧ (∀ v : Sextet, (encLut v).toNat < 0x80) ∧ padChar.toNat < 0x80
  ∧ decClass 0x2D#8 = .inv ∧ decClass 0x5F#8 = .inv

/-- EncLUT(v) (40_encoder.md R81) completes with the code the rule gives, and changes nothing else. That a look-up is
run as a step of its own, and where its answer stands, is the model's choice (log 5). -/
def Obligations.EncLutResult : Prop :=
  ∀ (v : Sextet) (s : State), ∃ c : Byte,
    exec (.encLut v) s = .next { s with lutOut := s.lutOut ++ [c] }
    ∧ c.toNat = (if v.toNat ≤ 25 then 0x41 + v.toNat
        else if v.toNat ≤ 51 then 0x61 + (v.toNat - 26)
        else if v.toNat ≤ 61 then 0x30 + (v.toNat - 52)
        else if v.toNat = 62 then 0x2B else 0x2F)

/-! ### The encoder -/

/-- `Regroup24` (40_encoder.md R80): the four sextets are the slices the rule gives, and no bit is lost or duplicated. -/
def Obligations.RegroupSlices : Prop :=
  ∀ b0 b1 b2 : Byte,
    (regroup24 b0 b1 b2).s0 = b0.extractLsb' 2 6
    ∧ (regroup24 b0 b1 b2).s1 = b0.extractLsb' 0 2 ++ b1.extractLsb' 4 4
    ∧ (regroup24 b0 b1 b2).s2 = b1.extractLsb' 0 4 ++ b2.extractLsb' 6 2
    ∧ (regroup24 b0 b1 b2).s3 = b2.extractLsb' 0 6
    ∧ concatSextets (regroup24 b0 b1 b2).s0 (regroup24 b0 b1 b2).s1 (regroup24 b0 b1 b2).s2 (regroup24 b0 b1 b2).s3
        = concat24 b0 b1 b2

/-- ENC3 (40_encoder.md R82, R94): the output beat's four lanes, `nchars = 4`, and nothing else changes. -/
def Obligations.Enc3Result : Prop :=
  ∀ (last : Bool) (b0 b1 b2 : Byte) (s : State),
    exec (.enc3 last b0 b1 b2) s = .next { s with encRecv := s.encRecv ++
      [{ last := last, nchars := 4#3
         c0 := encLut (b0.extractLsb' 2 6)
         c1 := encLut (b0.extractLsb' 0 2 ++ b1.extractLsb' 4 4)
         c2 := encLut (b1.extractLsb' 0 4 ++ b2.extractLsb' 6 2)
         c3 := encLut (b2.extractLsb' 0 6) }] }

/-- ENC2 (40_encoder.md R83, R94): three symbols, the third with its low two bits zero whatever lane 2 holds, then `=`. -/
def Obligations.Enc2Result : Prop :=
  ∀ (last : Bool) (b0 b1 b2 : Byte) (s : State),
    exec (.enc2 last b0 b1 b2) s = .next { s with encRecv := s.encRecv ++
      [{ last := last, nchars := 4#3
         c0 := encLut (b0.extractLsb' 2 6)
         c1 := encLut (b0.extractLsb' 0 2 ++ b1.extractLsb' 4 4)
         c2 := encLut (b1.extractLsb' 0 4 ++ 0#2)
         c3 := 0x3D#8 }] }

/-- ENC1 (40_encoder.md R84, R94): two symbols, the second with its low four bits zero whatever lanes 1 and 2 hold,
then `==`. -/
def Obligations.Enc1Result : Prop :=
  ∀ (last : Bool) (b0 b1 b2 : Byte) (s : State),
    exec (.enc1 last b0 b1 b2) s = .next { s with encRecv := s.encRecv ++
      [{ last := last, nchars := 4#3
         c0 := encLut (b0.extractLsb' 2 6)
         c1 := encLut (b0.extractLsb' 0 2 ++ 0#4)
         c2 := 0x3D#8
         c3 := 0x3D#8 }] }

/-- ENC0 (40_encoder.md R85): no characters, whatever the byte lanes hold; the output beat word of `ENC0.L` is
`0x800000000`. -/
def Obligations.Enc0Result : Prop :=
  (∀ (last : Bool) (b0 b1 b2 : Byte) (s : State),
    exec (.enc0 last b0 b1 b2) s = .next { s with encRecv := s.encRecv ++
      [{ last := last, nchars := 0#3, c0 := 0#8, c1 := 0#8, c2 := 0#8, c3 := 0#8 }] })
  ∧ (enc0Out true).word = 0x800000000#36

/-- `EncBeat` (40_encoder.md R86, 30_encoding.md R61): every input beat, whatever its fields, gives exactly one output
beat, the one of the operation that `count` selects; `last` is copied. -/
def Obligations.EncoderOneBeatPerBeat : Prop :=
  ∀ (b : EncIn) (s : State), ∃ o : EncOutBeat,
    perform (.present b.word) s = .next { s with encRecv := s.encRecv ++ [o] }
    ∧ o.last = b.last
    ∧ (b.count = 3#2 → o = enc3Out b.last b.b0 b.b1 b.b2)
    ∧ (b.count = 2#2 → o = enc2Out b.last b.b0 b.b1)
    ∧ (b.count = 1#2 → o = enc1Out b.last b.b0)
    ∧ (b.count = 0#2 → o = enc0Out b.last)

/-- Any sequence of encoder beats, framed or not, is encoded beat by beat, with no fault (40_encoder.md R93), and the
rule's example, on whose text the decoder fails. -/
def Obligations.EncoderAnyBeatSequence : Prop :=
  (∀ (bs : List EncIn) (rest : List HostAction) (s : State), s.schedule = sendEnc bs ++ rest →
    core.run bs.length s = .next { s with schedule := rest, encRecv := s.encRecv ++ bs.map EncIn.out })
  ∧ (enc1Out false 0x4D#8).chars ++ (enc2Out true 0x61#8 0x6E#8).chars =
      [0x54#8, 0x51#8, 0x3D#8, 0x3D#8, 0x59#8, 0x57#8, 0x34#8, 0x3D#8]
  ∧ (∀ skip, decodeText [0x54#8, 0x51#8, 0x3D#8, 0x3D#8, 0x59#8, 0x57#8, 0x34#8, 0x3D#8] skip = .error .invalidInput)
  ∧ encodeText [0x4D#8, 0x61#8, 0x6E#8] = [0x54#8, 0x57#8, 0x46#8, 0x75#8]

/-- The encoder's ports (10_state.md R24, 20_memory.md R32): `in_ready = out_ready`, `out_valid = in_valid`, and the
output fields are those of the beat the machine hands the consumer for that input beat. -/
def Obligations.EncoderPortsAgree : Prop :=
  ∀ (p : EncPortsIn) (s : State),
    (encPorts p).inReady = p.outReady ∧ (encPorts p).outValid = p.inValid
    ∧ ∃ o : EncOutBeat,
        perform (.present (encInWord p.inLast p.inCount (p.inData.extractLsb' 16 8) (p.inData.extractLsb' 8 8)
          (p.inData.extractLsb' 0 8))) s = .next { s with encRecv := s.encRecv ++ [o] }
        ∧ (encPorts p).outLast = o.last ∧ (encPorts p).outNchars = o.nchars
        ∧ (encPorts p).outChars = o.c0 ++ o.c1 ++ o.c2 ++ o.c3

/-! ### The encoder's messages -/

/-- The length law (40_encoder.md R89). -/
def Obligations.EncodeLength : Prop :=
  ∀ bs : List Byte, (encodeText bs).length = (bs.length + 2) / 3 * 4
    ∧ 4 ∣ (encodeText bs).length ∧ ((encodeText bs).length = 0 ↔ bs.length = 0)

/-- The padding law (40_encoder.md R91): the text is symbols followed by two, one or no `=`, by the length modulo 3. -/
def Obligations.EncodePadding : Prop :=
  ∀ bs : List Byte, ∃ syms : List Byte, (∀ c ∈ syms, isSym c = true) ∧
    encodeText bs = syms ++ List.replicate
      (if bs.length % 3 = 1 then 2 else if bs.length % 3 = 2 then 1 else 0) 0x3D#8

/-- Every character the encoder emits, on any input beat, and every character of its text, is one of the 64 symbols or
`=` (40_encoder.md R92). -/
def Obligations.EncodeAlphabet : Prop :=
  (∀ b : EncIn, ∀ c ∈ b.out.chars, isSym c = true ∨ c = 0x3D#8)
  ∧ ∀ bs : List Byte, ∀ c ∈ encodeText bs, isSym c = true ∨ c = 0x3D#8

/-- Beats and `Encode` agree (40_encoder.md R88): a framed sequence of beats gives as many output beats, whose valid
characters are `Encode` of the valid bytes, the last one and no other with `out_last = 1`. -/
def Obligations.EncodeMessageBeats : Prop :=
  ∀ (bs : List EncIn) (rest : List HostAction) (s : State), encFramed bs = true → s.schedule = sendEnc bs ++ rest →
    ∃ os : List EncOutBeat,
      core.run bs.length s = .next { s with schedule := rest, encRecv := s.encRecv ++ os }
      ∧ os.length = bs.length
      ∧ os.flatMap EncOutBeat.chars = encodeText (bs.flatMap EncIn.bytes)
      ∧ os.map EncOutBeat.last = List.replicate (bs.length - 1) false ++ [true]

/-- The host's procedure for `encode(B)` (42_host_operations.md R131) obtains `Encode(B)` from the machine, from any
state. -/
def Obligations.HostEncodeObtainsEncode : Prop :=
  ∀ (bytes : List Byte) (rest : List HostAction) (s : State), s.schedule = hostEncode bytes ++ rest →
    ∃ os : List EncOutBeat,
      core.run (hostEncode bytes).length s = .next { s with schedule := rest, encRecv := s.encRecv ++ os }
      ∧ encResult os = some (encodeText bytes)

/-! ### The decoder's operations -/

/-- `Pack24` (41_decoder.md R101): the three bytes are the slices the rule gives, and it is the inverse of `Regroup24`
in both directions. -/
def Obligations.PackSlices : Prop :=
  (∀ v0 v1 v2 v3 : Sextet,
    (pack24 v0 v1 v2 v3).y0 = v0 ++ v1.extractLsb' 4 2
    ∧ (pack24 v0 v1 v2 v3).y1 = v1.extractLsb' 0 4 ++ v2.extractLsb' 2 4
    ∧ (pack24 v0 v1 v2 v3).y2 = v2.extractLsb' 0 2 ++ v3
    ∧ regroup24 (pack24 v0 v1 v2 v3).y0 (pack24 v0 v1 v2 v3).y1 (pack24 v0 v1 v2 v3).y2
        = { s0 := v0, s1 := v1, s2 := v2, s3 := v3 })
  ∧ ∀ b0 b1 b2 : Byte,
      pack24 (regroup24 b0 b1 b2).s0 (regroup24 b0 b1 b2).s1 (regroup24 b0 b1 b2).s2 (regroup24 b0 b1 b2).s3
        = { y0 := b0, y1 := b1, y2 := b2 }

/-- The lane operations on a codec state within its bounds, rule by rule (41_decoder.md R102 DEC_NOP, R103 DEC_SYM, R104
DEC_PAD, R105 DEC_INV): the new codec state and the completed group. -/
def Obligations.LaneOperations : Prop :=
  ∀ c : Codec, c.pend.length ≤ 3 →
    laneNop c = (c, none)
    ∧ (∀ v,
        (c.failed = true → laneSym v c = (c, none))
        ∧ (c.failed = false → c.padSeen = true → laneSym v c = ({ c with failed := true }, none))
        ∧ (c.failed = false → c.padSeen = false → c.pend.length < 3 →
            laneSym v c = ({ c with pend := c.pend ++ [v] }, none))
        ∧ (∀ v0 v1 v2, c.failed = false → c.padSeen = false → c.pend = [v0, v1, v2] →
            laneSym v c = ({ c with pend := [] }, some (pack24 v0 v1 v2 v))))
    ∧ (c.failed = true → lanePad c = (c, none))
    ∧ (c.failed = false → lanePad c = ({ c with padSeen := true }, none))
    ∧ (∀ skip, c.failed = true → laneInv skip c = (c, none))
    ∧ (c.failed = false → laneInv true c = (c, none))
    ∧ (c.failed = false → laneInv false c = ({ c with failed := true }, none))

/-- DEC_NOP (41_decoder.md R102), run as a beat of its own, which is the model's choice (log 4): writes nothing, in any
state, whatever the unit bits hold. -/
def Obligations.DecNopResult : Prop :=
  ∀ (u : Byte) (s : State), exec (.decNop u) s = .next s

/-- DEC_SYM(v) (41_decoder.md R103), run as a beat of its own, which is the model's choice (log 4), the decoder ready:
nothing when the message has failed, `InvalidInput` after
padding in either mode, else a push, or as the fourth sextet a group and its data beat. -/
def Obligations.DecSymResult : Prop :=
  ∀ (v : Sextet) (s : State), s.oq = [] →
    (s.codec.failed = true → exec (.decSym v) s = .next s)
    ∧ (s.codec.failed = false → s.codec.padSeen = true →
        exec (.decSym v) s = .next { s with codec := { s.codec with failed := true } })
    ∧ (s.codec.failed = false → s.codec.padSeen = false → s.codec.pend.length < 3 →
        exec (.decSym v) s = .next { s with codec := { s.codec with pend := s.codec.pend ++ [v] } })
    ∧ (∀ v0 v1 v2, s.codec.failed = false → s.codec.padSeen = false → s.codec.pend = [v0, v1, v2] →
        exec (.decSym v) s = .next { s with codec := { s.codec with pend := [] }, oq :=
          [{ last := false, err := false, kind := 0#1, count := 3#2
             y0 := v0 ++ v1.extractLsb' 4 2
             y1 := v1.extractLsb' 0 4 ++ v2.extractLsb' 2 4
             y2 := v2.extractLsb' 0 2 ++ v }] })

/-- DEC_PAD (41_decoder.md R104), run as a beat of its own, which is the model's choice (log 4), the decoder ready:
nothing when the message has failed, else `pad_seen <- 1`, and `pend` is not touched. -/
def Obligations.DecPadResult : Prop :=
  ∀ s : State, s.oq = [] →
    (s.codec.failed = true → exec .decPad s = .next s)
    ∧ (s.codec.failed = false → exec .decPad s = .next { s with codec := { s.codec with padSeen := true } })

/-- DEC_INV (41_decoder.md R105), run as a beat of its own, which is the model's choice (log 4), the decoder ready:
discarded when `opt[0] = 1` or the message has failed, else `failed <- 1`; which unit it was, and whether padding was seen, makes no difference. -/
def Obligations.DecInvResult : Prop :=
  ∀ (u : Byte) (s : State), s.oq = [] →
    (s.codec.failed = true ∨ s.opt.getLsbD 0 = true → exec (.decInv u) s = .next s)
    ∧ (s.codec.failed = false → s.opt.getLsbD 0 = false →
        exec (.decInv u) s = .next { s with codec := { s.codec with failed := true } })

/-- DEC_END (41_decoder.md R107), on a beat whose lanes hold no unit, the decoder ready: the END beat by `failed` and
the pending sextets, and the codec state back at its reset values. -/
def Obligations.DecEndResult : Prop :=
  ∀ (u0 u1 u2 u3 : Byte) (s : State), s.oq = [] →
    let i : Instr := .decEnd { keep := false, unit := u0 } { keep := false, unit := u1 } { keep := false, unit := u2 }
      { keep := false, unit := u3 }
    let ended : DecOutBeat → State := fun e =>
      { s with codec := { pend := [], padSeen := false, failed := false }, oq := [e] }
    (s.codec.failed = true ∨ s.codec.pend.length = 1 →
      exec i s = .next (ended { last := true, err := true, kind := 1#1, count := 0#2, y0 := 0#8, y1 := 0#8, y2 := 0#8 }))
    ∧ (s.codec.failed = false → s.codec.pend = [] →
      exec i s = .next (ended { last := true, err := false, kind := 0#1, count := 0#2, y0 := 0#8, y1 := 0#8, y2 := 0#8 }))
    ∧ (∀ v0 v1, s.codec.failed = false → s.codec.pend = [v0, v1] →
      exec i s = .next (ended { last := true, err := false, kind := 0#1, count := 1#2
                                y0 := v0 ++ v1.extractLsb' 4 2, y1 := 0#8, y2 := 0#8 }))
    ∧ (∀ v0 v1 v2, s.codec.failed = false → s.codec.pend = [v0, v1, v2] →
      exec i s = .next (ended { last := true, err := false, kind := 0#1, count := 2#2
                                y0 := v0 ++ v1.extractLsb' 4 2
                                y1 := v1.extractLsb' 0 4 ++ v2.extractLsb' 2 4, y2 := 0#8 }))

/-- Operation selection in a beat (30_encoding.md R62, 41_decoder.md R108), the decoder ready: a DECB does what its four
lanes do one after another, each as the operation its nine bits decode to and as a beat of its own (log 4), and its
output beats are theirs in order. -/
def Obligations.DecbIsItsFourLanes : Prop :=
  ∀ (l0 l1 l2 l3 : Lane) (s : State), s.oq = [] →
    ∃ (i0 i1 i2 i3 : Instr) (s0 s1 s2 s3 : State),
      decode (laneWord l0.keep l0.unit) = .ok i0 ∧ decode (laneWord l1.keep l1.unit) = .ok i1
      ∧ decode (laneWord l2.keep l2.unit) = .ok i2 ∧ decode (laneWord l3.keep l3.unit) = .ok i3
      ∧ exec i0 s = .next s0 ∧ exec i1 { s0 with oq := [] } = .next s1 ∧ exec i2 { s1 with oq := [] } = .next s2
      ∧ exec i3 { s2 with oq := [] } = .next s3
      ∧ exec (.decb l0 l1 l2 l3) s = .next { s3 with oq := s0.oq ++ s1.oq ++ s2.oq ++ s3.oq }

/-- `DecBeat` written out as the fold of the four lanes (41_decoder.md R108), the decoder ready: the codec state passes
from lane to lane, each completed group emits its data beat, and on a last beat DEC_END follows. -/
def Obligations.DecBeatFold : Prop :=
  ∀ (l0 l1 l2 l3 : Lane) (s : State), s.oq = [] →
    let skip := s.opt.getLsbD 0
    let r0 := decLane skip l0 s.codec
    let r1 := decLane skip l1 r0.1
    let r2 := decLane skip l2 r1.1
    let r3 := decLane skip l3 r2.1
    let outs : List DecOutBeat := [r0.2, r1.2, r2.2, r3.2].flatMap fun g => match g with
      | none => []
      | some g => [{ last := false, err := false, kind := 0#1, count := 3#2, y0 := g.y0, y1 := g.y1, y2 := g.y2 }]
    exec (.decb l0 l1 l2 l3) s = .next { s with codec := r3.1, oq := outs }
    ∧ exec (.decEnd l0 l1 l2 l3) s = .next { s with codec := (decEndOp r3.1).1, oq := outs ++ [(decEndOp r3.1).2] }

/-- A beat offered while the decoder is not ready is not accepted and changes nothing (20_memory.md R32, R34). -/
def Obligations.NotReadyChangesNothing : Prop :=
  ∀ (i : Instr) (s : State), i.format = .decIn ∨ i.format = .decLane → s.oq ≠ [] → exec i s = .next s

/-- In a state whose pending buffer is within bounds, an accepted beat produces at most two output beats, at most one of
them a data beat; the END beat is there exactly when the beat was last, and stands last (41_decoder.md R108, 10_state.md
R15, R12). -/
def Obligations.AtMostTwoBeatsPerBeat : Prop :=
  ∀ (skip last : Bool) (l0 l1 l2 l3 : Lane) (c : Codec), c.pend.length ≤ 3 →
    (decBeat skip last [l0, l1, l2, l3] c).1.pend.length ≤ 3
    ∧ (decBeat skip last [l0, l1, l2, l3] c).2.length ≤ 2
    ∧ ((decBeat skip last [l0, l1, l2, l3] c).2.filter DecOutBeat.isData).length ≤ 1
    ∧ ((decBeat skip last [l0, l1, l2, l3] c).2.filter DecOutBeat.last).length = last.toNat
    ∧ (last = true → ((decBeat skip last [l0, l1, l2, l3] c).2.getLast?.map DecOutBeat.last) = some true)

/-! ### Failures -/

/-- Drain (41_decoder.md R106): while `failed = 1` every lane operation returns the codec state unchanged and no group,
so a beat that is not last changes nothing. -/
def Obligations.FailedMessageDrains : Prop :=
  (∀ (skip : Bool) (l : Lane) (c : Codec), c.failed = true → decLane skip l c = (c, none))
  ∧ ∀ (l0 l1 l2 l3 : Lane) (s : State), s.oq = [] → s.codec.failed = true → exec (.decb l0 l1 l2 l3) s = .next s

/-- Entry (60_exceptions.md R150): whenever a lane operation newly sets `failed`, it sets nothing else and emits nothing;
and DEC_END then answers the failure END beat `0x1C000000`, as it does for one pending sextet, and leaves `failed` clear. -/
def Obligations.RaisingSetsOnlyFailed : Prop :=
  (∀ (skip : Bool) (l : Lane) (c : Codec), c.failed = false → (decLane skip l c).1.failed = true →
    decLane skip l c = ({ c with failed := true }, none))
  ∧ ∀ c : Codec, c.failed = true ∨ c.pend.length = 1 →
      (decEndOp c).2.word = 0x1C000000#29 ∧ (decEndOp c).1 = { pend := [], padSeen := false, failed := false }

/-- The three causes of `InvalidInput` and no other (60_exceptions.md R146): a lane operation raises it exactly for an
invalid unit in strict mode (X1) or a symbol after padding in either mode (X2); DEC_END reports a failure exactly for an
earlier one or for one pending sextet in either mode (X3); every report has kind code 1 and no bytes. -/
def Obligations.FailureCauses : Prop :=
  (∀ (skip : Bool) (l : Lane) (c : Codec), c.failed = false →
    ((decLane skip l c).1.failed = true ↔
      l.keep = true ∧ ((decClass l.unit = .inv ∧ skip = false) ∨ (isSym l.unit = true ∧ c.padSeen = true))))
  ∧ ∀ c : Codec, ((decEndOp c).2.err = true ↔ c.failed = true ∨ c.pend.length = 1)
      ∧ ((decEndOp c).2.err = true → (decEndOp c).2.kind = 1#1 ∧ (decEndOp c).2.count = 0#2)

/-- The phases and all their transitions (41_decoder.md R119), and that the phase after reset is DATA. -/
def Obligations.PhaseTransitions : Prop :=
  Codec.reset.phase = .data
  ∧ ∀ c : Codec,
      (laneNop c).1.phase = c.phase
      ∧ (∀ v, (laneSym v c).1.phase = (match c.phase with
          | .data => .data | .padded => .failed | .failed => .failed))
      ∧ (lanePad c).1.phase = (match c.phase with
          | .data => .padded | .padded => .padded | .failed => .failed)
      ∧ (laneInv false c).1.phase = .failed
      ∧ (laneInv true c).1.phase = c.phase
      ∧ (decEndOp c).1.phase = .data
      ∧ ((decEndOp c).2.err = true ↔ c.phase = .failed ∨ c.pend.length = 1)

/-- "Only DEC_END (and reset) leaves FAILED or PADDED" (41_decoder.md R119), over all operations: no operation but
DEC_END clears `failed` or `pad_seen`. -/
def Obligations.OnlyDecEndClearsFlags : Prop :=
  ∀ (i : Instr) (s t : State), (∀ l0 l1 l2 l3, i ≠ .decEnd l0 l1 l2 l3) → exec i s = .next t →
    (s.codec.failed = true → t.codec = s.codec) ∧ (s.codec.padSeen = true → t.codec.padSeen = true)

/-! ### The host's other actions -/

/-- Reset (70_reset_and_hazards.md R170, 10_state.md R17): from any state, and at an edge with `rst = 1` whatever the other
inputs are, the decoder's state takes its reset values, nothing is delivered or accepted, and the decoder is then ready
with no beat shown. -/
def Obligations.ResetAction : Prop :=
  ∀ s : State,
    perform .assertRst s =
      .next { s with codec := { pend := [], padSeen := false, failed := false }, oq := [] }
    ∧ (∀ p : DecPortsIn, p.rst = true →
        clockEdge p s =
          { s with opt := p.opt, codec := { pend := [], padSeen := false, failed := false }, oq := [] })
    ∧ ∀ t, perform .assertRst s = .next t → (decPorts t).inReady = true ∧ (decPorts t).outValid = false

/-- The state after reset (10_state.md R17, R28). It says nothing of `opt`, to which the spec gives no value. -/
def Obligations.ResetValues : Prop :=
  State.reset.codec.pend = [] ∧ State.reset.codec.padSeen = false ∧ State.reset.codec.failed = false
  ∧ State.reset.oq = [] ∧ (decPorts State.reset).inReady = true ∧ (decPorts State.reset).outValid = false

/-- `opt[7:1]` is ignored and only `opt[0]` is read (10_state.md R21, 30_encoding.md R59): two option words with the same
bit 0 give the same result of every operation, and no operation writes `opt`. -/
def Obligations.OnlyOptBitZeroIsRead : Prop :=
  ∀ (i : Instr) (s : State) (o o' : OptWord), o.getLsbD 0 = o'.getLsbD 0 →
    ∃ t : State, exec i { s with opt := o } = .next { t with opt := o }
      ∧ exec i { s with opt := o' } = .next { t with opt := o' }

/-- One rising edge of `clk` at the decoder's ports (20_memory.md R32) is one action of the transaction-level machine
(R44), under the options word presented: reset, acceptance of the beat on the port, delivery, or none. The word on the
input port is `{in_last, in_keep, in_units}` (10_state.md R25, 20_memory.md R36, 30_encoding.md R56). `in_ready` and
`out_valid` are as R25 says, and while `out_valid = 1` the output fields are those of the head of `oq`, lane 0 in the most
significant bits, which is the beat a delivering edge hands to the consumer. -/
def Obligations.ClockEdgeIsOneTransaction : Prop :=
  ∀ (p : DecPortsIn) (s : State),
    let w : BeatWord := { nbits := 40, bits := 2 ^ 36 * p.inLast.toNat + 2 ^ 32 * p.inKeep.toNat + p.inUnits.toNat }
    p.beatWord = w
    ∧ (p.rst = true → perform .assertRst { s with opt := p.opt } = .next (clockEdge p s))
    ∧ (p.rst = false → p.inValid = true → (decPorts s).inReady = true →
        perform (.present w) { s with opt := p.opt } = .next (clockEdge p s))
    ∧ (p.rst = false → (decPorts s).outValid = true → p.outReady = true →
        perform .take { s with opt := p.opt } = .next (clockEdge p s))
    ∧ (p.rst = false → (p.inValid = false ∨ (decPorts s).inReady = false) →
        (p.outReady = false ∨ (decPorts s).outValid = false) → clockEdge p s = { s with opt := p.opt })
    ∧ ((decPorts s).inReady = true ↔ s.oq = []) ∧ ((decPorts s).outValid = true ↔ s.oq ≠ [])
    ∧ ((decPorts s).outValid = true → ∃ (b : DecOutBeat) (bs : List DecOutBeat) (f : DecFields),
        s.oq = b :: bs ∧ (decPorts s).fields = some f
        ∧ f.outBytes.toNat = 2 ^ 16 * b.y0.toNat + 2 ^ 8 * b.y1.toNat + b.y2.toNat
        ∧ f.outCount = b.count ∧ f.outLast = b.last ∧ f.outErr = b.err ∧ f.outKind = b.kind
        ∧ (p.rst = false → p.outReady = true →
            clockEdge p s = { s with opt := p.opt, oq := bs, decRecv := s.decRecv ++ [b] }))

/-! ### Frames and independence -/

/-- The encoder and the decoder share no state (20_memory.md R45): an encoder beat or a look-up leaves all of the
decoder, its consumer and the options alone; a decoder beat leaves the encoder's consumer and the look-ups alone, never
delivers a beat, and no operation touches the schedule or `opt`. -/
def Obligations.BlocksAreIndependent : Prop :=
  ∀ (i : Instr) (s t : State), exec i s = .next t →
    t.opt = s.opt ∧ t.schedule = s.schedule ∧ t.decRecv = s.decRecv
    ∧ (i.format = .encIn → t.codec = s.codec ∧ t.oq = s.oq ∧ t.lutOut = s.lutOut)
    ∧ (i.format = .sextet → t.codec = s.codec ∧ t.oq = s.oq ∧ t.encRecv = s.encRecv)
    ∧ (i.format = .decIn ∨ i.format = .decLane → t.encRecv = s.encRecv ∧ t.lutOut = s.lutOut)

/-- What a decoder operation does to the decoder is a function of the decoder's state and `opt[0]` alone: it does not
depend on the encoder, the consumers or the schedule (20_memory.md R45, R40). -/
def Obligations.DecoderReadsOnlyItsState : Prop :=
  ∀ (i : Instr) (s s' t t' : State), i.format = .decIn ∨ i.format = .decLane →
    s.codec = s'.codec → s.oq = s'.oq → s.opt.getLsbD 0 = s'.opt.getLsbD 0 →
    exec i s = .next t → exec i s' = .next t' → t.codec = t'.codec ∧ t.oq = t'.oq

/-! ### Invariants -/

/-- Every step keeps the invariant: the decoder's buffers stay within their bounds (10_state.md R12, R15), only the
legal shapes of output beats occur (30_encoding.md R55, R58), and an END beat not yet taken stands last over a codec
state at its reset values (R16). -/
def Obligations.StepKeepsInvariant : Prop :=
  ∀ s t : State, s.Inv → step s = .next t → t.Inv

/-- The invariant holds after reset. -/
def Obligations.ResetHasInvariant : Prop := State.reset.Inv

/-- `Unknown` is never reported (60_exceptions.md R147): if no beat in the queue or received reports it, none does after
any step. -/
def Obligations.UnknownIsNeverReported : Prop :=
  ∀ s t : State, (∀ b ∈ s.oq ++ s.decRecv, b.reportsUnknown = false) → step s = .next t →
    ∀ b ∈ t.oq ++ t.decRecv, b.reportsUnknown = false

/-- From a state that meets the invariant, two takes empty the queue: the consumer has received its beats in order, and
the decoder is ready (70_reset_and_hazards.md R182). -/
def Obligations.TwoTakesMakeReady : Prop :=
  ∀ (s : State) (rest : List HostAction), s.Inv → s.schedule = .take :: .take :: rest →
    core.run 2 s = .next { s with schedule := rest, oq := [], decRecv := s.decRecv ++ s.oq }

/-! ### The decoder's messages -/

/-- Round trip (41_decoder.md R113): `Decode(Encode(B), skip) = Ok(B)`. -/
def Obligations.RoundTrip : Prop :=
  ∀ (bs : List Byte) (skip : Bool), decodeText (encodeText bs) skip = .ok bs

/-- Skip-invalid mode is strict mode on the filtered text, strict mode fails on any invalid unit, and skip-invalid mode
still fails on a symbol after padding and on one pending sextet at the end (41_decoder.md R114). -/
def Obligations.SkipModeIsFilter : Prop :=
  (∀ us : List Byte, decodeText us true = decodeText (us.filter (fun u => !isInv u)) false)
  ∧ (∀ us : List Byte, us.any isInv = true → decodeText us false = .error .invalidInput)
  ∧ ∀ us : List Byte, symAfterPad us = true ∨ (us.filter isSym).length % 4 = 1 →
      decodeText us true = .error .invalidInput

/-- A decode fails for exactly three causes, always with `InvalidInput`: an invalid unit in strict mode, a symbol after
padding, or, in both modes, a symbol count of 1 modulo 4 (60_exceptions.md R146, by 41_decoder.md R109, R114, R115). -/
def Obligations.DecodeFailsExactly : Prop :=
  ∀ (us : List Byte) (skip : Bool),
    (decodeText us skip = .error .invalidInput ↔
      (skip = false ∧ us.any isInv = true) ∨ symAfterPad us = true ∨ (us.filter isSym).length % 4 = 1)
    ∧ decodeText us skip ≠ .error .unknown

/-- The length of a successful decode of `m` symbols (41_decoder.md R117); and `pend_cnt` counts 0, 1, 2, 3 and returns to
0: a lane operation leaves it or takes it to the next value modulo 4, and DEC_END takes it to 0. -/
def Obligations.DecodeLength : Prop :=
  (∀ (skip : Bool) (l : Lane) (c : Codec), c.pendCnt ≤ 3 →
    ((decLane skip l c).1.pendCnt = c.pendCnt ∨ (decLane skip l c).1.pendCnt = (c.pendCnt + 1) % 4)
    ∧ (decEndOp c).1.pendCnt = 0)
  ∧ ∀ (us : List Byte) (skip : Bool) (ys : List Byte), decodeText us skip = .ok ys →
    (us.filter isSym).length % 4 ≠ 1
    ∧ ys.length = 3 * ((us.filter isSym).length / 4)
        + (if (us.filter isSym).length % 4 = 2 then 1 else if (us.filter isSym).length % 4 = 3 then 2 else 0)
    ∧ ys.length = 6 * (us.filter isSym).length / 8

/-- No padding arithmetic (41_decoder.md R111): any number of padding units at the end of a text changes nothing. -/
def Obligations.PaddingIsNotCounted : Prop :=
  ∀ (us : List Byte) (k : Nat) (skip : Bool),
    decodeText (us ++ List.replicate k 0x3D#8) skip = decodeText us skip

/-- No check of the unused bits (41_decoder.md R112): the low 4 bits of a 12-bit tail and the low 2 bits of an 18-bit
tail have no effect on the END beat; and the rule's examples. -/
def Obligations.UnusedBitsAreDiscarded : Prop :=
  (∀ (v0 v1 w1 : Sextet) (p f : Bool), v1.extractLsb' 4 2 = w1.extractLsb' 4 2 →
    (decEndOp { pend := [v0, v1], padSeen := p, failed := f }).2
      = (decEndOp { pend := [v0, w1], padSeen := p, failed := f }).2)
  ∧ (∀ (v0 v1 v2 w2 : Sextet) (p f : Bool), v2.extractLsb' 2 4 = w2.extractLsb' 2 4 →
    (decEndOp { pend := [v0, v1, v2], padSeen := p, failed := f }).2
      = (decEndOp { pend := [v0, v1, w2], padSeen := p, failed := f }).2)
  ∧ decodeText [0x54#8, 0x52#8, 0x3D#8, 0x3D#8] false = .ok [0x4D#8]
  ∧ decodeText [0x54#8, 0x57#8, 0x48#8, 0x3D#8] false = .ok [0x4D#8, 0x61#8]

/-- Beats and `Decode` agree (41_decoder.md R110), for any spreading of the units over lanes and beats, from a ready
decoder whose codec fields have their reset values. First, in any run of the host's actions without a reset (offers and
takes in any order, offers that are not accepted and takes of nothing among them: log 9), with `opt[0]` the same on every
accepted beat and `opt[7:1]` anything: what the consumer has received and is still owed (`oq`) is data beats and one END
beat. The data beats hold the groups that the fold of the units completes, which are those before a failing unit; on
success all valid bytes are `Decode`'s, on failure the END beat is the failure beat. Second, for the host that offers a
beat and takes twice (`sendDec`; a take that finds no beat is log 9), the run's whole next state: afterwards the decoder is
as before the message (R16, R183). -/
def Obligations.DecodeMessageBeats : Prop :=
  (∀ (n : Nat) (s : State) (skip : Bool), s.codec = Codec.reset → s.oq = [] →
    (∀ a ∈ s.schedule.take n, a.continues = true) →
    (∀ p ∈ acceptedBeats n s, p.2.getLsbD 0 = skip) → decFramed ((acceptedBeats n s).map Prod.fst) = true →
    ∃ (t : State) (ds : List DecOutBeat) (e : DecOutBeat),
      core.run n s = .next t ∧ t.codec = Codec.reset ∧ t.schedule = s.schedule.drop n
      ∧ t.decRecv ++ t.oq = s.decRecv ++ ds ++ [e]
      ∧ (∀ d ∈ ds, d.isData = true) ∧ e.last = true
      ∧ ds.flatMap DecOutBeat.bytes
          = (decodeUnits skip (((acceptedBeats n s).map Prod.fst).flatMap DecIn.units) Codec.reset).2
      ∧ (match decodeText (((acceptedBeats n s).map Prod.fst).flatMap DecIn.units) skip with
          | .ok ys => e.err = false ∧ ds.flatMap DecOutBeat.bytes ++ e.bytes = ys
          | .error k => k = .invalidInput ∧ e.err = true ∧ e.kind = 1#1 ∧ e.count = 0#2))
  ∧ ∀ (bs : List DecIn) (rest : List HostAction) (s : State), decFramed bs = true →
    s.codec = Codec.reset → s.oq = [] → s.schedule = sendDec bs ++ rest →
    ∃ (ds : List DecOutBeat) (e : DecOutBeat),
      core.run (sendDec bs).length s = .next { s with schedule := rest, decRecv := s.decRecv ++ ds ++ [e] }
      ∧ (∀ d ∈ ds, d.isData = true) ∧ e.last = true
      ∧ ds.flatMap DecOutBeat.bytes = (decodeUnits (s.opt.getLsbD 0) (bs.flatMap DecIn.units) Codec.reset).2
      ∧ (match decodeText (bs.flatMap DecIn.units) (s.opt.getLsbD 0) with
          | .ok ys => e.err = false ∧ ds.flatMap DecOutBeat.bytes ++ e.bytes = ys
          | .error k => k = .invalidInput ∧ e.err = true ∧ e.kind = 1#1 ∧ e.count = 0#2)

/-- The host's procedure for `decode(U, options)` (42_host_operations.md R133) obtains `Decode(U, options[0])` from the
machine: the bytes, or the error and no bytes (60_exceptions.md R151). First for R133's placement of the units, with a
consumer that takes twice after each beat (a take that finds no beat is log 9); then for any other placement (R39) and
any order of offers and takes (log 9), from the beats received and still owed. -/
def Obligations.HostDecodeObtainsDecode : Prop :=
  ∀ (units : List Byte) (options : Nat),
    (∀ (rest : List HostAction) (s : State),
      s.codec = Codec.reset → s.oq = [] → s.schedule = hostDecode units options ++ rest →
      ∃ os : List DecOutBeat,
        core.run (hostDecode units options).length s =
          .next { s with schedule := rest, opt := hostOpt options, decRecv := s.decRecv ++ os }
        ∧ decResult os = some (decodeText units (options % 2 == 1)))
    ∧ ∀ (n : Nat) (s : State), s.codec = Codec.reset → s.oq = [] →
      (∀ a ∈ s.schedule.take n, a.continues = true) →
      (∀ p ∈ acceptedBeats n s, p.2.getLsbD 0 = (hostOpt options).getLsbD 0) →
      decFramed ((acceptedBeats n s).map Prod.fst) = true →
      ((acceptedBeats n s).map Prod.fst).flatMap DecIn.units = units →
      ∃ (t : State) (os : List DecOutBeat),
        core.run n s = .next t ∧ t.codec = Codec.reset ∧ t.decRecv ++ t.oq = s.decRecv ++ os
        ∧ decResult os = some (decodeText units (options % 2 == 1))

/-- A reset in mid-message (70_reset_and_hazards.md R171) aborts the message: whatever the state was, the next message
decodes as the first after reset, and what the consumer receives after the reset is that message's data beats and its one
END beat, so the aborted message gets none. First for the host that takes twice after each beat (a take that finds no
beat is log 9); then for any order of offers and takes after the reset (log 9), from the beats received and still owed. -/
def Obligations.ResetAbortsTheMessage : Prop :=
  (∀ (units : List Byte) (options : Nat) (rest : List HostAction) (s : State),
    s.schedule = .assertRst :: (hostDecode units options ++ rest) →
    ∃ (ds : List DecOutBeat) (e : DecOutBeat),
      core.run ((hostDecode units options).length + 1) s =
        .next { s with codec := Codec.reset, oq := [], schedule := rest, opt := hostOpt options,
                       decRecv := s.decRecv ++ ds ++ [e] }
      ∧ (∀ d ∈ ds, d.isData = true) ∧ e.last = true
      ∧ decResult (ds ++ [e]) = some (decodeText units (options % 2 == 1)))
  ∧ ∀ (n : Nat) (s : State) (later : List HostAction) (skip : Bool), s.schedule = .assertRst :: later →
    let r : State := { s with codec := Codec.reset, oq := [], schedule := later }
    (∀ a ∈ later.take n, a.continues = true) →
    (∀ p ∈ acceptedBeats n r, p.2.getLsbD 0 = skip) → decFramed ((acceptedBeats n r).map Prod.fst) = true →
    ∃ (t : State) (ds : List DecOutBeat) (e : DecOutBeat),
      core.run (n + 1) s = .next t ∧ t.decRecv ++ t.oq = s.decRecv ++ ds ++ [e]
      ∧ (∀ d ∈ ds, d.isData = true) ∧ e.last = true
      ∧ decResult (ds ++ [e]) = some (decodeText (((acceptedBeats n r).map Prod.fst).flatMap DecIn.units) skip)

/-- The empty input (41_decoder.md R116): `Decode([], skip) = Ok([])`, and as beats the one beat `0x1000000000` gives the
one END beat `0x10000000`. -/
def Obligations.EmptyInput : Prop :=
  (∀ skip : Bool, decodeText [] skip = .ok [])
  ∧ ∀ s : State, s.codec = Codec.reset → s.oq = [] →
      ∃ e : DecOutBeat, perform (.present { nbits := 40, bits := 0x1000000000 }) s = .next { s with oq := [e] }
        ∧ e.word = 0x10000000#29

/-- The six public operations (42_host_operations.md R130), from a ready decoder whose codec fields have their reset
values: each is one message to the one block of its row, whose consumer receives its result. The convenience forms
(R135) present `opt = 0x00` and answer `Decode(U, 0)`'s bytes, or the empty sequence when it fails. The consumer takes
twice after each decoder beat (a take that finds no beat is log 9). -/
def Obligations.PublicOperationsObtained : Prop :=
  ∀ (op : PublicOp) (rest : List HostAction) (s : State),
    s.codec = Codec.reset → s.oq = [] → s.schedule = op.actions ++ rest →
    ∃ (es : List EncOutBeat) (ds : List DecOutBeat),
      core.run op.actions.length s = .next { s with
        schedule := rest
        opt := (match op with
          | .encodeToText _ => s.opt
          | .encodeToBytes _ => s.opt
          | .decodeFromText _ options => hostOpt options
          | .decodeFromBytes _ options => hostOpt options
          | .decodeFromTextStrict _ => 0x00#8
          | .decodeFromBytesStrict _ => 0x00#8)
        encRecv := s.encRecv ++ es
        decRecv := s.decRecv ++ ds }
      ∧ (op.usesEncoder = true → ds = []) ∧ (op.usesEncoder = false → es = [])
      ∧ op.result es ds = some (match op with
          | .encodeToText bytes => .units (encodeText bytes)
          | .encodeToBytes bytes => .units (encodeText bytes)
          | .decodeFromText units options => .unitsOrError (decodeText units (options % 2 == 1))
          | .decodeFromBytes units options => .unitsOrError (decodeText units (options % 2 == 1))
          | .decodeFromTextStrict units => .units (match decodeText units false with
              | .ok ys => ys
              | .error _ => [])
          | .decodeFromBytesStrict units => .units (match decodeText units false with
              | .ok ys => ys
              | .error _ => []))
end

