-- ==== Sys2Proof/Laws/Encoding.lean ====
section
/-! SUPPORT. Fields of a word: a bit or a slice of a sum of shifted fields is the field that stands there. -/

namespace Sys2Proof

/-- A slice is the field that stands at its place, between what is above and what is below. -/
theorem slice_field {n lo w hi low : Nat} (f : BitVec w) (h : n = hi * 2 ^ (lo + w) + f.toNat * 2 ^ lo + low)
    (hl : low < 2 ^ lo) : slice n lo w = f := by
  apply BitVec.eq_of_toNat_eq
  have hf := f.isLt
  have hp : 0 < 2 ^ lo := Nat.two_pow_pos lo
  have : n / 2 ^ lo = hi * 2 ^ w + f.toNat := by
    rw [h, Nat.pow_add]
    have : hi * (2 ^ lo * 2 ^ w) + f.toNat * 2 ^ lo + low = low + 2 ^ lo * (hi * 2 ^ w + f.toNat) := by ring
    rw [this, Nat.add_mul_div_left _ _ hp, Nat.div_eq_of_lt hl, Nat.zero_add]
  simp [slice, this, Nat.mod_eq_of_lt hf]

/-- A bit is the flag that stands at its place, between what is above and what is below. -/
theorem bitAt_field {n i hi low : Nat} (b : Bool) (h : n = hi * 2 ^ (i + 1) + b.toNat * 2 ^ i + low)
    (hl : low < 2 ^ i) : bitAt n i = b := by
  have hp : 0 < 2 ^ i := Nat.two_pow_pos i
  have : n / 2 ^ i = hi * 2 + b.toNat := by
    rw [h, Nat.pow_succ]
    have : hi * (2 ^ i * 2) + b.toNat * 2 ^ i + low = low + 2 ^ i * (hi * 2 + b.toNat) := by ring
    rw [this, Nat.add_mul_div_left _ _ hp, Nat.div_eq_of_lt hl, Nat.zero_add]
  cases b <;> simp [bitAt, this]

@[simp] theorem ofBits_tableBits (f : Format) : Format.ofBits f.tableBits = some f := by cases f <;> rfl

/-- A word that fits its format decodes, as its format says. -/
theorem decode_fits {f : Format} {nbits n : Nat} (h : Format.ofBits nbits = some f) (hn : n < 2 ^ f.width) :
    decode { nbits := nbits, bits := n } = .ok (decodeAs f n) := by
  simp [decode, h, hn]

/-- What a word that decodes is: of some format, and within its width. -/
theorem decode_ok {w : BeatWord} {i : Instr} (h : decode w = .ok i) :
    ∃ f, Format.ofBits w.nbits = some f ∧ w.bits < 2 ^ f.width ∧ i = decodeAs f w.bits := by
  unfold decode at h
  split at h
  · cases h
  · rename_i f hf
    split at h
    · rename_i hlt
      cases h
      exact ⟨f, hf, hlt, rfl⟩
    · cases h

end Sys2Proof
end

