-- ==== Sys2Proof/Laws/State.lean ====
section
/-! SUPPORT. What each plain update of the state does to each field, one lemma per field. -/

namespace Sys2Proof.Machine

@[simp] theorem Codec.setPadSeen_pend (c : Codec) : (c.setPadSeen).pend = c.pend := rfl
@[simp] theorem Codec.setPadSeen_padSeen (c : Codec) : (c.setPadSeen).padSeen = true := rfl
@[simp] theorem Codec.setPadSeen_failed (c : Codec) : (c.setPadSeen).failed = c.failed := rfl

@[simp] theorem Codec.setFailed_pend (c : Codec) : (c.setFailed).pend = c.pend := rfl
@[simp] theorem Codec.setFailed_padSeen (c : Codec) : (c.setFailed).padSeen = c.padSeen := rfl
@[simp] theorem Codec.setFailed_failed (c : Codec) : (c.setFailed).failed = true := rfl

@[simp] theorem raiseInvalidInput_pend (c : Codec) : (raiseInvalidInput c).pend = c.pend := rfl
@[simp] theorem raiseInvalidInput_padSeen (c : Codec) : (raiseInvalidInput c).padSeen = c.padSeen := rfl
@[simp] theorem raiseInvalidInput_failed (c : Codec) : (raiseInvalidInput c).failed = true := rfl

@[simp] theorem leaveMessage_pend (c : Codec) : (leaveMessage c).pend = [] := rfl
@[simp] theorem leaveMessage_padSeen (c : Codec) : (leaveMessage c).padSeen = false := rfl
@[simp] theorem leaveMessage_failed (c : Codec) : (leaveMessage c).failed = false := rfl

@[simp] theorem leaveMessage_eq_reset (c : Codec) : leaveMessage c = Codec.reset := rfl
@[simp] theorem Codec.reset_pend : Codec.reset.pend = [] := rfl
@[simp] theorem Codec.reset_padSeen : Codec.reset.padSeen = false := rfl
@[simp] theorem Codec.reset_failed : Codec.reset.failed = false := rfl

@[simp] theorem setOpt_codec (o : OptWord) (s : State) : (setOpt o s).codec = s.codec := rfl
@[simp] theorem setOpt_oq (o : OptWord) (s : State) : (setOpt o s).oq = s.oq := rfl
@[simp] theorem setOpt_opt (o : OptWord) (s : State) : (setOpt o s).opt = o := rfl
@[simp] theorem setOpt_schedule (o : OptWord) (s : State) : (setOpt o s).schedule = s.schedule := rfl
@[simp] theorem setOpt_encRecv (o : OptWord) (s : State) : (setOpt o s).encRecv = s.encRecv := rfl
@[simp] theorem setOpt_decRecv (o : OptWord) (s : State) : (setOpt o s).decRecv = s.decRecv := rfl
@[simp] theorem setOpt_lutOut (o : OptWord) (s : State) : (setOpt o s).lutOut = s.lutOut := rfl

@[simp] theorem transferEnc_codec (b : EncOutBeat) (s : State) : (transferEnc b s).codec = s.codec := rfl
@[simp] theorem transferEnc_oq (b : EncOutBeat) (s : State) : (transferEnc b s).oq = s.oq := rfl
@[simp] theorem transferEnc_opt (b : EncOutBeat) (s : State) : (transferEnc b s).opt = s.opt := rfl
@[simp] theorem transferEnc_schedule (b : EncOutBeat) (s : State) : (transferEnc b s).schedule = s.schedule := rfl
@[simp] theorem transferEnc_encRecv (b : EncOutBeat) (s : State) : (transferEnc b s).encRecv = s.encRecv ++ [b] := rfl
@[simp] theorem transferEnc_decRecv (b : EncOutBeat) (s : State) : (transferEnc b s).decRecv = s.decRecv := rfl
@[simp] theorem transferEnc_lutOut (b : EncOutBeat) (s : State) : (transferEnc b s).lutOut = s.lutOut := rfl

@[simp] theorem answerLut_codec (c : Byte) (s : State) : (answerLut c s).codec = s.codec := rfl
@[simp] theorem answerLut_oq (c : Byte) (s : State) : (answerLut c s).oq = s.oq := rfl
@[simp] theorem answerLut_opt (c : Byte) (s : State) : (answerLut c s).opt = s.opt := rfl
@[simp] theorem answerLut_schedule (c : Byte) (s : State) : (answerLut c s).schedule = s.schedule := rfl
@[simp] theorem answerLut_encRecv (c : Byte) (s : State) : (answerLut c s).encRecv = s.encRecv := rfl
@[simp] theorem answerLut_decRecv (c : Byte) (s : State) : (answerLut c s).decRecv = s.decRecv := rfl
@[simp] theorem answerLut_lutOut (c : Byte) (s : State) : (answerLut c s).lutOut = s.lutOut ++ [c] := rfl

@[simp] theorem resetDecoder_codec (s : State) : (resetDecoder s).codec = Codec.reset := rfl
@[simp] theorem resetDecoder_oq (s : State) : (resetDecoder s).oq = [] := rfl
@[simp] theorem resetDecoder_opt (s : State) : (resetDecoder s).opt = s.opt := rfl
@[simp] theorem resetDecoder_schedule (s : State) : (resetDecoder s).schedule = s.schedule := rfl
@[simp] theorem resetDecoder_encRecv (s : State) : (resetDecoder s).encRecv = s.encRecv := rfl
@[simp] theorem resetDecoder_decRecv (s : State) : (resetDecoder s).decRecv = s.decRecv := rfl
@[simp] theorem resetDecoder_lutOut (s : State) : (resetDecoder s).lutOut = s.lutOut := rfl

@[simp] theorem offerFirst_codec (w : BeatWord) (s : State) : (offerFirst w s).codec = s.codec := rfl
@[simp] theorem offerFirst_oq (w : BeatWord) (s : State) : (offerFirst w s).oq = s.oq := rfl
@[simp] theorem offerFirst_opt (w : BeatWord) (s : State) : (offerFirst w s).opt = s.opt := rfl
@[simp] theorem offerFirst_schedule (w : BeatWord) (s : State) : (offerFirst w s).schedule = .present w :: s.schedule := rfl
@[simp] theorem offerFirst_encRecv (w : BeatWord) (s : State) : (offerFirst w s).encRecv = s.encRecv := rfl
@[simp] theorem offerFirst_decRecv (w : BeatWord) (s : State) : (offerFirst w s).decRecv = s.decRecv := rfl
@[simp] theorem offerFirst_lutOut (w : BeatWord) (s : State) : (offerFirst w s).lutOut = s.lutOut := rfl

end Sys2Proof.Machine
end

