-- ==== Sys2Proof/Laws/Ops.lean ====
section
/-! SUPPORT. What each shared operation of the machine can do, said once: the beat transfers, the host's schedule, and
the lane operations. Proofs cite these instead of unfolding the operations. -/

namespace Sys2Proof.Machine

/-! ### Beat transfers -/

/-- An offered beat is accepted when `oq` is empty. -/
theorem acceptBeat_ready {respond : Codec → Codec × List DecOutBeat} {s : State} (h : s.oq = []) :
    acceptBeat respond s = { s with codec := (respond s.codec).1, oq := (respond s.codec).2 } := by
  simp [acceptBeat, h]

/-- An offered beat that is not accepted changes nothing. -/
theorem acceptBeat_busy {respond : Codec → Codec × List DecOutBeat} {s : State} (h : s.oq ≠ []) :
    acceptBeat respond s = s := by
  simp [acceptBeat, h]

@[simp] theorem acceptBeat_opt (r : Codec → Codec × List DecOutBeat) (s : State) :
    (acceptBeat r s).opt = s.opt := by unfold acceptBeat; split <;> rfl

@[simp] theorem acceptBeat_schedule (r : Codec → Codec × List DecOutBeat) (s : State) :
    (acceptBeat r s).schedule = s.schedule := by unfold acceptBeat; split <;> rfl

@[simp] theorem acceptBeat_encRecv (r : Codec → Codec × List DecOutBeat) (s : State) :
    (acceptBeat r s).encRecv = s.encRecv := by unfold acceptBeat; split <;> rfl

@[simp] theorem acceptBeat_decRecv (r : Codec → Codec × List DecOutBeat) (s : State) :
    (acceptBeat r s).decRecv = s.decRecv := by unfold acceptBeat; split <;> rfl

@[simp] theorem acceptBeat_lutOut (r : Codec → Codec × List DecOutBeat) (s : State) :
    (acceptBeat r s).lutOut = s.lutOut := by unfold acceptBeat; split <;> rfl

/-- With `oq` empty nothing is delivered. -/
theorem deliver_empty {s : State} (h : s.oq = []) : deliver s = s := by
  simp [deliver, h]

/-- The head of `oq` is delivered and removed. -/
theorem deliver_cons {s : State} {b : DecOutBeat} {rest : List DecOutBeat} (h : s.oq = b :: rest) :
    deliver s = { s with oq := rest, decRecv := s.decRecv ++ [b] } := by
  simp [deliver, h]

@[simp] theorem deliver_codec (s : State) : (deliver s).codec = s.codec := by unfold deliver; split <;> rfl

@[simp] theorem deliver_opt (s : State) : (deliver s).opt = s.opt := by unfold deliver; split <;> rfl

@[simp] theorem deliver_schedule (s : State) : (deliver s).schedule = s.schedule := by
  unfold deliver; split <;> rfl

@[simp] theorem deliver_encRecv (s : State) : (deliver s).encRecv = s.encRecv := by unfold deliver; split <;> rfl

@[simp] theorem deliver_lutOut (s : State) : (deliver s).lutOut = s.lutOut := by unfold deliver; split <;> rfl

@[simp] theorem deliver_oq (s : State) : (deliver s).oq = s.oq.tail := by
  unfold deliver; split <;> simp_all

/-- No beat is lost or invented between the queue and the consumer. -/
theorem deliver_keeps_beats (s : State) : (deliver s).decRecv ++ (deliver s).oq = s.decRecv ++ s.oq := by
  unfold deliver; split <;> simp_all

/-! ### The schedule -/

@[simp] theorem nextAction_nil {s : State} (h : s.schedule = []) : nextAction s = none := by
  simp [nextAction, h]

@[simp] theorem nextAction_cons {s : State} {a : HostAction} {rest : List HostAction} (h : s.schedule = a :: rest) :
    nextAction s = some (a, { s with schedule := rest }) := by
  simp [nextAction, h]

/-! ### Output beats -/

@[simp] theorem dataBeat_last (g : Group) : (dataBeat g).last = false := rfl

@[simp] theorem dataBeat_bytes (g : Group) : (dataBeat g).bytes = [g.y0, g.y1, g.y2] := rfl

@[simp] theorem endBeat_last (n : BitVec 2) (y0 y1 : Byte) : (endBeat n y0 y1).last = true := rfl

@[simp] theorem endBeat_err (n : BitVec 2) (y0 y1 : Byte) : (endBeat n y0 y1).err = false := rfl

@[simp] theorem failBeat_last (k : ErrorKind) : (failBeat k).last = true := rfl

@[simp] theorem failBeat_err (k : ErrorKind) : (failBeat k).err = true := rfl

@[simp] theorem failBeat_bytes (k : ErrorKind) : (failBeat k).bytes = [] := rfl

@[simp] theorem ofCode_code (k : ErrorKind) : ErrorKind.ofCode k.code = k := by cases k <;> rfl

/-! ### Lane operations -/

/-- Everything a lane operation can do to a codec state: nothing, push a sextet, complete a group, see padding, or
raise `InvalidInput`; with the conditions of each. -/
theorem decLane_cases (skip : Bool) (l : Lane) (c : Codec) :
    decLane skip l c = (c, none)
      ∨ (∃ v, l.keep = true ∧ decClass l.unit = .sym v ∧ c.failed = false ∧ c.padSeen = false ∧ c.pend.length < 3
          ∧ decLane skip l c = ({ c with pend := c.pend ++ [v] }, none))
      ∨ (∃ v v0 v1 v2 tl, l.keep = true ∧ decClass l.unit = .sym v ∧ c.failed = false ∧ c.padSeen = false
          ∧ c.pend = v0 :: v1 :: v2 :: tl
          ∧ decLane skip l c = ({ c with pend := [] }, some (pack24 v0 v1 v2 v)))
      ∨ (l.keep = true ∧ decClass l.unit = .pad ∧ c.failed = false ∧ decLane skip l c = (c.setPadSeen, none))
      ∨ (l.keep = true ∧ c.failed = false
          ∧ ((∃ v, decClass l.unit = .sym v ∧ c.padSeen = true) ∨ (decClass l.unit = .inv ∧ skip = false))
          ∧ decLane skip l c = (raiseInvalidInput c, none)) := by
  cases hk : l.keep with
  | false => simp [decLane, hk, laneNop]
  | true =>
    cases hc : decClass l.unit with
    | pad => cases hf : c.failed <;> simp [decLane, hk, hc, lanePad, hf]
    | inv => cases hf : c.failed <;> cases skip <;> simp [decLane, hk, hc, laneInv, hf]
    | sym v =>
      cases hf : c.failed with
      | true => simp [decLane, hk, hc, laneSym, hf]
      | false =>
        cases hp : c.padSeen with
        | true => simp [decLane, hk, hc, laneSym, hf, hp]
        | false =>
          rcases hq : c.pend with _ | ⟨v0, _ | ⟨v1, _ | ⟨v2, tl⟩⟩⟩ <;> simp [decLane, hk, hc, laneSym, hf, hp, hq]

/-- A failed message drains: a lane operation does nothing. -/
theorem decLane_failed {skip : Bool} {l : Lane} {c : Codec} (h : c.failed = true) :
    decLane skip l c = (c, none) := by
  unfold decLane
  split
  · split <;> simp [laneSym, lanePad, laneInv, h]
  · rfl

/-- A lane that holds no unit does nothing. -/
@[simp] theorem decLane_empty {skip : Bool} {u : Byte} {c : Codec} :
    decLane skip { keep := false, unit := u } c = (c, none) := rfl

@[simp] theorem decLanes_nil (skip : Bool) (c : Codec) : decLanes skip [] c = (c, []) := rfl

theorem decLanes_cons (skip : Bool) (l : Lane) (ls : List Lane) (c : Codec) :
    decLanes skip (l :: ls) c =
      ((decLanes skip ls (decLane skip l c).1).1,
        beatsOf (decLane skip l c).2 ++ (decLanes skip ls (decLane skip l c).1).2) := rfl

@[simp] theorem beatsOf_none : beatsOf none = [] := rfl

@[simp] theorem beatsOf_some (g : Group) : beatsOf (some g) = [dataBeat g] := rfl

/-- Every END beat ends its message. -/
@[simp] theorem endOf_last (c : Codec) : (endOf c).last = true := by
  unfold endOf
  split
  · rfl
  · split <;> rfl

end Sys2Proof.Machine
end

