-- ==== Sys2Proof/Laws/Step.lean ====
section
/-! SUPPORT. What a step and a run do, one lemma per action of the host. -/

namespace Sys2Proof.Machine

theorem perform_present {w : BeatWord} {i : Instr} (h : decode w = .ok i) (s : State) :
    perform (.present w) s = exec i s := by
  simp [perform, h]

theorem perform_noBeat {w : BeatWord} {e : DecodeError} (h : decode w = .error e) (s : State) :
    perform (.present w) s = .refused (.noSuchBeat e) := by
  simp [perform, h]

@[simp] theorem perform_take (s : State) : perform .take s = .next (deliver s) := rfl

@[simp] theorem perform_driveOpt (o : OptWord) (s : State) : perform (.driveOpt o) s = .next (setOpt o s) := rfl

@[simp] theorem perform_assertRst (s : State) : perform .assertRst s = .next (resetDecoder s) := rfl

/-- A step performs the action at the head of the schedule. -/
theorem step_cons {s : State} {a : HostAction} {rest : List HostAction} (h : s.schedule = a :: rest) :
    step s = perform a { s with schedule := rest } := by
  simp [step, nextAction, h]

/-- With nothing to come the machine holds its state. -/
theorem step_idle {s : State} (h : s.schedule = []) : step s = .next s := by
  simp [step, nextAction, h]

theorem core_step (s : State) : core.step s = step s := rfl

theorem core_run_zero (s : State) : core.run 0 s = .next s := rfl

/-- A run goes on from the state its first step answers. -/
theorem core_run_next {s t : State} (h : step s = .next t) (n : Nat) : core.run (n + 1) s = core.run n t := by
  have h' : core.step s = .next t := h
  simp only [Host.Core.run, h']

end Sys2Proof.Machine
end

