-- ==== Sys2Proof/Laws/Message.lean ====
section
/-! SUPPORT. The fold of the lane operations, over the lanes of a beat and over the units of a message: bounds, the
beats it emits, and that the two folds agree. And what `exec` can do, said once for all operations. -/

namespace Sys2Proof.Machine

/-! ### The fold over lanes -/

/-- One lane: the buffer stays within bounds, four sextets are paid for each group, and only data beats are emitted. -/
theorem decLane_bounds (skip : Bool) (l : Lane) (c : Codec) (h : c.pend.length ≤ 3) :
    (decLane skip l c).1.pend.length ≤ 3
      ∧ (beatsOf (decLane skip l c).2).length * 4 + (decLane skip l c).1.pend.length ≤ c.pend.length + 1 := by
  rcases decLane_cases skip l c with e | ⟨v, -, -, -, -, hl, e⟩ | ⟨v, v0, v1, v2, tl, -, -, -, -, hp, e⟩ | ⟨-, -, -, e⟩ | ⟨-, -, -, e⟩
    <;> rw [e]
  · simpa using h
  · simp only [List.length_append, List.length_singleton, beatsOf_none, List.length_nil]; omega
  · simp [hp]
  · simpa using h
  · simpa using h

/-- The lanes of a beat: as for one lane, summed. -/
theorem decLanes_bounds (skip : Bool) (ls : List Lane) (c : Codec) (h : c.pend.length ≤ 3) :
    (decLanes skip ls c).1.pend.length ≤ 3
      ∧ (decLanes skip ls c).2.length * 4 + (decLanes skip ls c).1.pend.length ≤ c.pend.length + ls.length := by
  induction ls generalizing c with
  | nil => simpa using h
  | cons l ls ih =>
    obtain ⟨h1, h2⟩ := decLane_bounds skip l c h
    obtain ⟨g1, g2⟩ := ih _ h1
    rw [decLanes_cons]
    exact ⟨g1, by simp only [List.length_append, List.length_cons]; omega⟩

/-- The lanes of a beat emit data beats only. -/
theorem decLanes_data (skip : Bool) (ls : List Lane) (c : Codec) : ∀ b ∈ (decLanes skip ls c).2, b.isData = true := by
  induction ls generalizing c with
  | nil => simp
  | cons l ls ih =>
    intro b hb
    rw [decLanes_cons, List.mem_append] at hb
    rcases hb with hb | hb
    · cases hg : (decLane skip l c).2 with
      | none => simp [hg] at hb
      | some g =>
        rw [hg, beatsOf_some, List.mem_singleton] at hb
        rw [hb]
        rfl
    · exact ih _ b hb

/-- A data beat is not last. -/
theorem isData_last {b : DecOutBeat} (h : b.isData = true) : b.last = false := by
  simp only [DecOutBeat.isData, Bool.and_eq_true, Bool.not_eq_true'] at h
  exact h.1.1.1

/-! ### The fold over units -/

/-- A message in two parts. -/
theorem decodeUnits_append (skip : Bool) (us vs : List Byte) (c : Codec) :
    decodeUnits skip (us ++ vs) c =
      ((decodeUnits skip vs (decodeUnits skip us c).1).1,
        (decodeUnits skip us c).2 ++ (decodeUnits skip vs (decodeUnits skip us c).1).2) := by
  induction us generalizing c with
  | nil => rfl
  | cons u us ih => simp [decodeUnits, ih]

/-- A failed message drains. -/
theorem decodeUnits_failed (skip : Bool) (us : List Byte) {c : Codec} (h : c.failed = true) :
    decodeUnits skip us c = (c, []) := by
  induction us with
  | nil => rfl
  | cons u us ih => simp [decodeUnits, decLane_failed h, ih, bytesOf]

theorem beatsOf_bytes (g : Option Group) : (beatsOf g).flatMap DecOutBeat.bytes = bytesOf g := by
  cases g <;> rfl

/-- The lanes of a beat do what the units of its kept lanes do. -/
theorem decLanes_eq_decodeUnits (skip : Bool) (ls : List Lane) (c : Codec) :
    (decLanes skip ls c).1 = (decodeUnits skip ((ls.filter (·.keep)).map (·.unit)) c).1
      ∧ (decLanes skip ls c).2.flatMap DecOutBeat.bytes
          = (decodeUnits skip ((ls.filter (·.keep)).map (·.unit)) c).2 := by
  induction ls generalizing c with
  | nil => exact ⟨rfl, rfl⟩
  | cons l ls ih =>
    obtain ⟨k, u⟩ := l
    rw [decLanes_cons]
    cases k with
    | false => simp [ih]
    | true => simp [decodeUnits, ih, beatsOf_bytes]

/-! ### The end of a message -/

/-- An END beat that reports a failure is the one failure beat. -/
theorem endOf_eq_failBeat {c : Codec} (h : (endOf c).err = true) : endOf c = failBeat .invalidInput := by
  unfold endOf at h ⊢
  split
  · rfl
  · rename_i hf
    rw [if_neg hf] at h
    split at h <;> first | rfl | cases h

/-! ### What `exec` can do -/

/-- Every operation of the decoder is the acceptance of a beat of at most four lanes. -/
theorem exec_decoder {i : Instr} (hi : i.format = .decIn ∨ i.format = .decLane) (hw : i.wellFormed = true) (s : State) :
    ∃ last ls, ls.length ≤ 4 ∧ exec i s = .next (acceptBeat (decBeat (skipOf s.opt) last ls) s) := by
  have one : ∀ (op : Codec → Codec × Option Group) (l : Lane), (∀ c, decLane (skipOf s.opt) l c = op c) →
      exec i s = .next (acceptBeat (oneLane op) s) →
      ∃ last ls, ls.length ≤ 4 ∧ exec i s = .next (acceptBeat (decBeat (skipOf s.opt) last ls) s) := by
    intro op l h he
    refine ⟨false, [l], by simp, he.trans ?_⟩
    have : oneLane op = decBeat (skipOf s.opt) false [l] := by
      funext c
      simp [decBeat, decLanes_cons, h, oneLane]
    rw [this]
  have hsym : ∀ v : Sextet, decClass (encLut v) = .sym v := by decide
  cases i with
  | decNop u => exact one laneNop { keep := false, unit := u } (fun _ => rfl) rfl
  | decSym v => exact one (laneSym v) { keep := true, unit := encLut v } (fun c => by simp [decLane, hsym]) rfl
  | decPad => exact one lanePad { keep := true, unit := padChar } (fun _ => rfl) rfl
  | decInv u =>
    have hu : decClass u = .inv := by simpa [Instr.wellFormed] using hw
    exact one (laneInv (skipOf s.opt)) { keep := true, unit := u } (fun c => by simp [decLane, hu]) rfl
  | decb l0 l1 l2 l3 => exact ⟨false, [l0, l1, l2, l3], by simp, rfl⟩
  | decEnd l0 l1 l2 l3 => exact ⟨true, [l0, l1, l2, l3], by simp, rfl⟩
  | enc0 => simp [Instr.format] at hi
  | enc1 => simp [Instr.format] at hi
  | enc2 => simp [Instr.format] at hi
  | enc3 => simp [Instr.format] at hi
  | encLut => simp [Instr.format] at hi

/-- Every operation of the encoder is the transfer of one output beat. -/
theorem exec_encoder {i : Instr} (hi : i.format = .encIn) (s : State) :
    ∃ b : EncIn, exec i s = .next (transferEnc b.out s) := by
  cases i with
  | enc0 l b0 b1 b2 => exact ⟨{ last := l, count := 0#2, b0 := b0, b1 := b1, b2 := b2 }, rfl⟩
  | enc1 l b0 b1 b2 => exact ⟨{ last := l, count := 1#2, b0 := b0, b1 := b1, b2 := b2 }, rfl⟩
  | enc2 l b0 b1 b2 => exact ⟨{ last := l, count := 2#2, b0 := b0, b1 := b1, b2 := b2 }, rfl⟩
  | enc3 l b0 b1 b2 => exact ⟨{ last := l, count := 3#2, b0 := b0, b1 := b1, b2 := b2 }, rfl⟩
  | decNop => simp [Instr.format] at hi
  | decSym => simp [Instr.format] at hi
  | decPad => simp [Instr.format] at hi
  | decInv => simp [Instr.format] at hi
  | decb => simp [Instr.format] at hi
  | decEnd => simp [Instr.format] at hi
  | encLut => simp [Instr.format] at hi

/-- A look-up answers one character. -/
theorem exec_lut {i : Instr} (hi : i.format = .sextet) (s : State) :
    ∃ v : Sextet, i = .encLut v ∧ exec i s = .next (answerLut (Machine.encLut v) s) := by
  cases i with
  | encLut v => exact ⟨v, rfl, rfl⟩
  | enc0 => simp [Instr.format] at hi
  | enc1 => simp [Instr.format] at hi
  | enc2 => simp [Instr.format] at hi
  | enc3 => simp [Instr.format] at hi
  | decNop => simp [Instr.format] at hi
  | decSym => simp [Instr.format] at hi
  | decPad => simp [Instr.format] at hi
  | decInv => simp [Instr.format] at hi
  | decb => simp [Instr.format] at hi
  | decEnd => simp [Instr.format] at hi

end Sys2Proof.Machine
end

