-- ==== Sys2Proof/Laws/Operands.lean ====
section
/-! SUPPORT. The concatenations and slices of the operands as numbers, so that linear arithmetic decides facts about
them. -/

namespace Sys2Proof.Machine

/-- Concatenation as a number. -/
theorem toNat_concat {n m : Nat} (x : BitVec n) (y : BitVec m) : (x ++ y).toNat = x.toNat * 2 ^ m + y.toNat := by
  rw [BitVec.toNat_append, ← Nat.shiftLeft_add_eq_or_of_lt y.isLt, Nat.shiftLeft_eq]

/-- A slice as a number. -/
theorem toNat_slice {n : Nat} (x : BitVec n) (lo w : Nat) : (x.extractLsb' lo w).toNat = x.toNat / 2 ^ lo % 2 ^ w := by
  simp [Nat.shiftRight_eq_div_pow]

theorem toNat_concat24 (b0 b1 b2 : Byte) :
    (concat24 b0 b1 b2).toNat = b0.toNat * 65536 + b1.toNat * 256 + b2.toNat := by
  show (b0 ++ b1 ++ b2).toNat = _
  rw [toNat_concat, toNat_concat]
  omega

theorem toNat_concatSextets (v0 v1 v2 v3 : Sextet) :
    (concatSextets v0 v1 v2 v3).toNat = v0.toNat * 262144 + v1.toNat * 4096 + v2.toNat * 64 + v3.toNat := by
  show (v0 ++ v1 ++ v2 ++ v3).toNat = _
  rw [toNat_concat, toNat_concat, toNat_concat]
  omega

theorem toNat_regroup24 (b0 b1 b2 : Byte) :
    (regroup24 b0 b1 b2).s0.toNat = b0.toNat / 4
      ∧ (regroup24 b0 b1 b2).s1.toNat = b0.toNat % 4 * 16 + b1.toNat / 16
      ∧ (regroup24 b0 b1 b2).s2.toNat = b1.toNat % 16 * 4 + b2.toNat / 64
      ∧ (regroup24 b0 b1 b2).s3.toNat = b2.toNat % 64 := by
  have h0 := b0.isLt
  have h1 := b1.isLt
  have h2 := b2.isLt
  simp only [regroup24, toNat_slice, toNat_concat24]
  omega

theorem toNat_pack24 (v0 v1 v2 v3 : Sextet) :
    (pack24 v0 v1 v2 v3).y0.toNat = v0.toNat * 4 + v1.toNat / 16
      ∧ (pack24 v0 v1 v2 v3).y1.toNat = v1.toNat % 16 * 16 + v2.toNat / 4
      ∧ (pack24 v0 v1 v2 v3).y2.toNat = v2.toNat % 4 * 64 + v3.toNat := by
  have h0 := v0.isLt
  have h1 := v1.isLt
  have h2 := v2.isLt
  have h3 := v3.isLt
  simp only [pack24, toNat_slice, toNat_concatSextets]
  omega

theorem toNat_tail12 (v0 v1 : Sextet) : (tail12 v0 v1).toNat = v0.toNat * 4 + v1.toNat / 16 := by
  have h0 := v0.isLt
  have h1 := v1.isLt
  show ((v0 ++ v1).extractLsb' 4 8).toNat = _
  rw [toNat_slice, toNat_concat]
  omega

theorem toNat_tail18hi (v0 v1 v2 : Sextet) : (tail18hi v0 v1 v2).toNat = v0.toNat * 4 + v1.toNat / 16 := by
  have h0 := v0.isLt
  have h1 := v1.isLt
  have h2 := v2.isLt
  show ((v0 ++ v1 ++ v2).extractLsb' 10 8).toNat = _
  rw [toNat_slice, toNat_concat, toNat_concat]
  omega

theorem toNat_tail18lo (v0 v1 v2 : Sextet) :
    (tail18lo v0 v1 v2).toNat = v1.toNat % 16 * 16 + v2.toNat / 4 := by
  have h0 := v0.isLt
  have h1 := v1.isLt
  have h2 := v2.isLt
  show ((v0 ++ v1 ++ v2).extractLsb' 2 8).toNat = _
  rw [toNat_slice, toNat_concat, toNat_concat]
  omega

end Sys2Proof.Machine
end

