-- ==== Sys2Proof/Laws/PerInstr.lean ====
section
/-! SUPPORT. Statements made per instruction: `EncodesInFormat` says that an operation's beat word is written in its
format's bits and has no bit above the format's top bit (30_encoding.md R54, R56, R57). -/

namespace Sys2Proof.Laws.EncodesInFormat

/-- The beat word of the operation fits the operation's format. -/
def Statement (i : Instr) : Prop :=
  (encode i).nbits = i.format.tableBits ∧ (encode i).bits < 2 ^ i.format.width

theorem encIn_fits (last : Bool) (c : BitVec 2) (b0 b1 b2 : Byte) : (encInWord last c b0 b1 b2).bits < 2 ^ 27 := by
  have hl := Bool.toNat_lt last
  have hc := c.isLt
  have h0 := b0.isLt
  have h1 := b1.isLt
  have h2 := b2.isLt
  simp only [encInWord]
  omega

theorem lane_fits (k : Bool) (u : Byte) : (laneWord k u).bits < 2 ^ 9 := by
  have hk := Bool.toNat_lt k
  have hu := u.isLt
  simp only [laneWord]
  omega

theorem decIn_fits (last : Bool) (l0 l1 l2 l3 : Lane) : (decInWord last l0 l1 l2 l3).bits < 2 ^ 37 := by
  have hl := Bool.toNat_lt last
  have k0 := Bool.toNat_lt l0.keep
  have k1 := Bool.toNat_lt l1.keep
  have k2 := Bool.toNat_lt l2.keep
  have k3 := Bool.toNat_lt l3.keep
  have u0 := l0.unit.isLt
  have u1 := l1.unit.isLt
  have u2 := l2.unit.isLt
  have u3 := l3.unit.isLt
  simp only [decInWord]
  omega

theorem enc0 (last : Bool) (b0 b1 b2 : Byte) : Statement (.enc0 last b0 b1 b2) := ⟨rfl, encIn_fits _ _ _ _ _⟩
theorem enc1 (last : Bool) (b0 b1 b2 : Byte) : Statement (.enc1 last b0 b1 b2) := ⟨rfl, encIn_fits _ _ _ _ _⟩
theorem enc2 (last : Bool) (b0 b1 b2 : Byte) : Statement (.enc2 last b0 b1 b2) := ⟨rfl, encIn_fits _ _ _ _ _⟩
theorem enc3 (last : Bool) (b0 b1 b2 : Byte) : Statement (.enc3 last b0 b1 b2) := ⟨rfl, encIn_fits _ _ _ _ _⟩
theorem decNop (u : Byte) : Statement (.decNop u) := ⟨rfl, lane_fits _ _⟩
theorem decSym (v : Sextet) : Statement (.decSym v) := ⟨rfl, lane_fits _ _⟩
theorem decPad : Statement .decPad := ⟨rfl, lane_fits _ _⟩
theorem decInv (u : Byte) : Statement (.decInv u) := ⟨rfl, lane_fits _ _⟩
theorem decb (l0 l1 l2 l3 : Lane) : Statement (.decb l0 l1 l2 l3) := ⟨rfl, decIn_fits _ _ _ _ _⟩
theorem decEnd (l0 l1 l2 l3 : Lane) : Statement (.decEnd l0 l1 l2 l3) := ⟨rfl, decIn_fits _ _ _ _ _⟩
theorem encLut (v : Sextet) : Statement (.encLut v) := ⟨rfl, v.isLt⟩

end Sys2Proof.Laws.EncodesInFormat
end

