-- ==== Sys2Proof/Laws/Run.lean ====
section
/-! SUPPORT. Runs of the decoder in which the host offers and takes in any order: which beats are accepted, and what the
consumer has then received and is still owed. -/

namespace Sys2Proof.Machine

theorem acceptedBeats_zero (s : State) : acceptedBeats 0 s = [] := rfl

/-- A step with nothing to come accepts nothing. -/
theorem acceptedBeats_idle {s : State} (h : s.schedule = []) (n : Nat) :
    acceptedBeats (n + 1) s = acceptedBeats n s := by
  simp [acceptedBeats, nextAction_nil h, step_idle h]

/-- A step accepts what its action makes the decoder accept; the rest is accepted from the state it answers. -/
theorem acceptedBeats_cons {s t : State} {a : HostAction} {rest : List HostAction} (h : s.schedule = a :: rest)
    (hs : step s = .next t) (n : Nat) :
    acceptedBeats (n + 1) s = (acceptedOf a { s with schedule := rest }).toList ++ acceptedBeats n t := by
  simp [acceptedBeats, nextAction_cons h, hs]

theorem decBeats_nil (skip : Bool) (c : Codec) : decBeats skip [] c = (c, []) := rfl

theorem decBeats_cons (skip : Bool) (b : DecIn) (bs : List DecIn) (c : Codec) :
    decBeats skip (b :: bs) c =
      ((decBeats skip bs (decBeat skip b.last b.lanes c).1).1,
        (decBeat skip b.last b.lanes c).2 ++ (decBeats skip bs (decBeat skip b.last b.lanes c).1).2) := rfl

/-- A lane in a beat of its own does what the beat of its operation does. -/
theorem oneLane_eq {skip : Bool} {l : Lane} {op : Codec → Codec × Option Group} (h : ∀ c, decLane skip l c = op c) :
    oneLane op = decBeat skip (oneLaneIn l).last (oneLaneIn l).lanes := by
  funext c
  simp [oneLane, oneLaneIn, noLane, DecIn.lanes, decBeat, decLanes_cons, h]

/-- A unit that decodes to DEC_INV is of class INV. -/
theorem decode_decInv {w : BeatWord} {u : Byte} (h : decode w = .ok (.decInv u)) : decClass u = .inv := by
  obtain ⟨f, -, -, hi⟩ := decode_ok h
  cases f <;> simp only [decodeAs, decodeEncIn, decodeDecIn, decodeDecLane] at hi
  · split at hi <;> [skip; split at hi <;> [skip; split at hi]] <;> cases hi
  · split at hi <;> cases hi
  · split at hi
    · split at hi
      · cases hi
      · cases hi
      · cases hi
        assumption
    · cases hi
  · cases hi

/-- What offering a decoded word does, said once: a decoder operation is the acceptance of its beat; any other leaves
the decoder, its consumer, `opt` and the schedule alone. -/
theorem exec_decInOf {w : BeatWord} {i : Instr} (hd : decode w = .ok i) (s : State) :
    (∃ b, decInOf i = some b ∧ exec i s = .next (acceptBeat (decBeat (skipOf s.opt) b.last b.lanes) s))
      ∨ (decInOf i = none ∧ ∃ t, exec i s = .next t ∧ t.codec = s.codec ∧ t.oq = s.oq ∧ t.decRecv = s.decRecv
          ∧ t.schedule = s.schedule) := by
  have hsym : ∀ v : Sextet, decClass (encLut v) = .sym v := by decide
  cases i with
  | enc0 => exact .inr ⟨rfl, _, rfl, rfl, rfl, rfl, rfl⟩
  | enc1 => exact .inr ⟨rfl, _, rfl, rfl, rfl, rfl, rfl⟩
  | enc2 => exact .inr ⟨rfl, _, rfl, rfl, rfl, rfl, rfl⟩
  | enc3 => exact .inr ⟨rfl, _, rfl, rfl, rfl, rfl, rfl⟩
  | encLut => exact .inr ⟨rfl, _, rfl, rfl, rfl, rfl, rfl⟩
  | decb l0 l1 l2 l3 => exact .inl ⟨_, rfl, rfl⟩
  | decEnd l0 l1 l2 l3 => exact .inl ⟨_, rfl, rfl⟩
  | decNop u =>
    refine .inl ⟨_, rfl, ?_⟩
    rw [← oneLane_eq (op := laneNop) (fun _ => rfl)]
    rfl
  | decSym v =>
    refine .inl ⟨_, rfl, ?_⟩
    rw [← oneLane_eq (op := laneSym v) (fun c => by simp [decLane, unitLane, hsym])]
    rfl
  | decPad =>
    refine .inl ⟨_, rfl, ?_⟩
    rw [← oneLane_eq (op := lanePad) (fun _ => rfl)]
    rfl
  | decInv u =>
    refine .inl ⟨_, rfl, ?_⟩
    rw [← oneLane_eq (op := laneInv (skipOf s.opt)) (fun c => by simp [decLane, unitLane, decode_decInv hd])]
    rfl

/-- One step without a reset: the beat it accepts, if any, makes its response, and no beat is lost or invented between
the decoder and its consumer. -/
theorem step_owed {s : State} {a : HostAction} {rest : List HostAction} {skip : Bool} (h : s.schedule = a :: rest)
    (ha : a.continues = true)
    (hk : ∀ p ∈ (acceptedOf a { s with schedule := rest }).toList, skipOf p.2 = skip) :
    ∃ t, step s = .next t ∧ t.schedule = rest
      ∧ t.codec = (decBeats skip ((acceptedOf a { s with schedule := rest }).toList.map Prod.fst) s.codec).1
      ∧ t.decRecv ++ t.oq = s.decRecv ++ s.oq
          ++ (decBeats skip ((acceptedOf a { s with schedule := rest }).toList.map Prod.fst) s.codec).2 := by
  rw [step_cons h]
  cases a with
  | take =>
    refine ⟨_, rfl, by simp, by simp [acceptedOf, decBeats], ?_⟩
    rw [deliver_keeps_beats]
    simp [acceptedOf, decBeats]
  | driveOpt o => exact ⟨_, rfl, rfl, rfl, by simp [acceptedOf, decBeats]⟩
  | assertRst => cases ha
  | present w =>
    cases hd : decode w with
    | error e => simp [HostAction.continues, hd] at ha
    | ok i =>
      rw [perform_present hd]
      simp only [acceptedOf, hd] at hk ⊢
      rcases exec_decInOf hd { s with schedule := rest } with ⟨b, hb, e⟩ | ⟨hb, t, e, h1, h2, h3, h4⟩
      · rw [hb] at hk ⊢
        refine ⟨_, e, by simp, ?_⟩
        by_cases ho : s.oq = []
        · have hr : inReady { s with schedule := rest } = true := by simp [inReady, ho]
          have hs : skipOf s.opt = skip := by simpa [hr] using hk
          rw [acceptBeat_ready (s := { s with schedule := rest }) ho]
          simp only [hr, if_true]
          simp [decBeats, ho, hs]
        · have hr : inReady { s with schedule := rest } = false := by simp [inReady, ho]
          rw [acceptBeat_busy (s := { s with schedule := rest }) ho]
          simp [hr, decBeats]
      · rw [hb]
        exact ⟨t, e, h4, by simp [h1, decBeats], by simp [h2, h3, decBeats]⟩

theorem decBeats_append (skip : Bool) (bs cs : List DecIn) (c : Codec) :
    decBeats skip (bs ++ cs) c =
      ((decBeats skip cs (decBeats skip bs c).1).1,
        (decBeats skip bs c).2 ++ (decBeats skip cs (decBeats skip bs c).1).2) := by
  induction bs generalizing c with
  | nil => rfl
  | cons b bs ih => simp [decBeats_cons, ih]

/-- A run without a reset, in whatever order the host offers and takes: the decoder ends in the codec state of the beats
it accepted, and what its consumer has received and is still owed is what was owed before and the response to them. -/
theorem run_owed (skip : Bool) (n : Nat) (s : State) (ha : ∀ a ∈ s.schedule.take n, a.continues = true)
    (hk : ∀ p ∈ acceptedBeats n s, skipOf p.2 = skip) :
    ∃ t, core.run n s = .next t ∧ t.schedule = s.schedule.drop n
      ∧ t.codec = (decBeats skip ((acceptedBeats n s).map Prod.fst) s.codec).1
      ∧ t.decRecv ++ t.oq = s.decRecv ++ s.oq ++ (decBeats skip ((acceptedBeats n s).map Prod.fst) s.codec).2 := by
  induction n generalizing s with
  | zero => exact ⟨s, rfl, rfl, rfl, by simp [acceptedBeats_zero, decBeats]⟩
  | succ n ih =>
    cases hs : s.schedule with
    | nil =>
      rw [acceptedBeats_idle hs] at hk ⊢
      rw [core_run_next (step_idle hs)]
      obtain ⟨t, h1, h2, h3⟩ := ih s (by simp [hs]) hk
      exact ⟨t, h1, by simp [h2, hs], h3⟩
    | cons a rest =>
      rw [hs] at ha
      have hk1 : ∀ p ∈ (acceptedOf a { s with schedule := rest }).toList, skipOf p.2 = skip := by
        intro p hp
        refine hk p ?_
        simp only [acceptedBeats, nextAction_cons hs]
        exact List.mem_append_left _ hp
      obtain ⟨t, h1, h2, h3, h4⟩ := step_owed hs (ha a (by simp)) hk1
      rw [acceptedBeats_cons hs h1] at hk ⊢
      obtain ⟨r, g1, g2, g3, g4⟩ :=
        ih t (by rw [h2]; exact fun x hx => ha x (by simp [hx])) (fun p hp => hk p (List.mem_append_right _ hp))
      rw [core_run_next h1]
      refine ⟨r, g1, by simp [g2, h2], ?_, ?_⟩
      · rw [g3, List.map_append, decBeats_append, h3]
      · rw [g4, h4, List.map_append, decBeats_append, h3, List.append_assoc]

/-- The response to a framed message: data beats and one END beat, by the fold of its units. -/
theorem decBeats_framed (skip : Bool) (bs : List DecIn) (hf : decFramed bs = true) (c : Codec) :
    ∃ ds : List DecOutBeat,
      decBeats skip bs c = (Codec.reset, ds ++ [endOf (decodeUnits skip (bs.flatMap DecIn.units) c).1])
      ∧ (∀ d ∈ ds, d.isData = true)
      ∧ ds.flatMap DecOutBeat.bytes = (decodeUnits skip (bs.flatMap DecIn.units) c).2 := by
  induction bs generalizing c with
  | nil => cases hf
  | cons b bs ih =>
    obtain ⟨e1, e2⟩ := decLanes_eq_decodeUnits skip b.lanes c
    rw [List.flatMap_cons, decodeUnits_append, decBeats_cons]
    change (decLanes skip b.lanes c).1 = (decodeUnits skip b.units c).1 at e1
    change _ = (decodeUnits skip b.units c).2 at e2
    cases bs with
    | nil =>
      have hl : b.last = true := hf
      refine ⟨(decLanes skip b.lanes c).2, ?_, decLanes_data _ _ _, ?_⟩
      · simp [decBeats_nil, decBeat, hl, decEndOp, e1, decodeUnits]
      · simp [e2, decodeUnits]
    | cons b' bs =>
      simp only [decFramed, Bool.and_eq_true, Bool.not_eq_true'] at hf
      obtain ⟨ds, h1, h2, h3⟩ := ih hf.2 (decodeUnits skip b.units c).1
      have e : decBeat skip b.last b.lanes c = decLanes skip b.lanes c := by rw [hf.1]; rfl
      rw [e, e1, h1]
      refine ⟨(decLanes skip b.lanes c).2 ++ ds, by simp, ?_, ?_⟩
      · intro d hd
        rcases List.mem_append.1 hd with hd | hd
        · exact decLanes_data _ _ _ d hd
        · exact h2 d hd
      · rw [List.flatMap_append, e2, h3]

end Sys2Proof.Machine
end

