-- ==== Sys2Proof/Tests/Slice0.lean ====
section
/-! SUPPORT. The model's own tests. Expected values are taken from 95_test_vectors.md (its numbers stand in the comments)
and from the encodings of 30_encoding.md, never from the model; and for every obligation that has hypotheses, a witness
that meets them. -/

namespace Sys2Proof.Tests

open Sys2Proof.Machine

/-- The state a step answers, if it answers one. -/
def nextOf (o : Host.Outcome State Fault Refusal) : Option State :=
  match o with
  | .next s => some s
  | .fault _ => none
  | .refused _ => none

/-- A decoder state `(pend, pad_seen, failed)` with `oq` empty and this options word. -/
def dec (pend : List Nat) (padSeen failed : Bool) (opt : OptWord) : State :=
  { State.reset with
    codec := { pend := pend.map (BitVec.ofNat 6), padSeen := padSeen, failed := failed }, opt := opt }

/-- The codec state and the words of `oq` after one step that runs the table word from that state. -/
def after (s : State) (nbits w : Nat) : Option (List Nat × Bool × Bool × List Nat) :=
  (nextOf (step (s.withFetchWord nbits w))).map fun t =>
    (t.codec.pend.map (·.toNat), t.codec.padSeen, t.codec.failed, t.oq.map (·.word.toNat))

/-- The words the encoder's consumer has received after one step that runs the table word from reset. -/
def encOut (w : Nat) : Option (List Nat) :=
  (nextOf (step (State.reset.withFetchWord 32 w))).map fun t => t.encRecv.map (·.word.toNat)

/-! ### WellFormed -/

theorem test_wellFormed_refuses_inv_symbol : Instr.wellFormed (.decInv 0x41#8) = false := by decide
theorem test_wellFormed_refuses_inv_padding : Instr.wellFormed (.decInv 0x3D#8) = false := by decide
theorem test_wellFormed_accepts_inv : Instr.wellFormed (.decInv 0x21#8) = true := by decide

/-! ### Decoding, words written out from the encodings -/

-- ENC_IN (R54): last, count, b0, b1, b2
theorem test_decode_enc3 : decodeTableWord 32 0b111010011010110000101101110 = some (.enc3 true 0x4D#8 0x61#8 0x6E#8) := by
  decide
theorem test_decode_enc2 : decodeTableWord 32 0b010010011010110000111111111 = some (.enc2 false 0x4D#8 0x61#8 0xFF#8) := by
  decide
theorem test_decode_enc1 : decodeTableWord 32 0b101010011011010101001010101 = some (.enc1 true 0x4D#8 0xAA#8 0x55#8) := by
  decide
theorem test_decode_enc0 : decodeTableWord 32 0b100000000000000000000000001 = some (.enc0 true 0#8 0#8 1#8) := by decide
-- DEC_LANE (R57): k, u
theorem test_decode_decNop : decodeTableWord 16 0b000111101 = some (.decNop 0x3D#8) := by decide
theorem test_decode_decSym : decodeTableWord 16 0b101010100 = some (.decSym 19#6) := by decide
theorem test_decode_decPad : decodeTableWord 16 0b100111101 = some .decPad := by decide
theorem test_decode_decInv : decodeTableWord 16 0b111000011 = some (.decInv 0xC3#8) := by decide
-- DEC_IN (R56): last, k0 to k3, u0, u1, u2, u3
theorem test_decode_decb : decodeTableWord 40 0b0101001010100000000000101011100000000 =
    some (.decb (unitLane 0x54#8) noLane (unitLane 0x57#8) noLane) := by decide
theorem test_decode_decEnd : decodeTableWord 40 0b1100001010100000000000000000000000000 =
    some (.decEnd (unitLane 0x54#8) noLane noLane noLane) := by decide
-- SEXTET (R62)
theorem test_decode_encLut : decodeTableWord 8 0b010011 = some (.encLut 19#6) := by decide
-- a bit where the port has no wire, and lengths no port has
theorem test_decode_stray_bit : decode { nbits := 32, bits := 0x8000000 } = .error (.strayBits .encIn) := by decide
theorem test_decode_no_format : decode { nbits := 0, bits := 0 } = .error (.noSuchFormat 0) := by decide

/-! ### One step of each operation -/

theorem test_enc3_E1 : encOut 0x74D616E = some [0xC54574675] := by decide
theorem test_enc3_E14 : encOut 0x3FBEFBE = some [0x42B2B2B2B] := by decide
theorem test_enc2_E18_ignores_lane_2 : encOut 0x64D61FF = some [0xC5457453D] := by decide
theorem test_enc2_E9 : encOut 0x6FFFF00 = some [0xC2F2F383D] := by decide
theorem test_enc1_E17_ignores_lanes : encOut 0x54DAA55 = some [0xC54513D3D] := by decide
theorem test_enc1_E10 : encOut 0x5FF0000 = some [0xC2F773D3D] := by decide
theorem test_enc0_E19_ignores_lanes : encOut 0x4DEADBE = some [0x800000000] := by decide
theorem test_encLut_62 :
    (nextOf (step (State.reset.withFetchWord 8 62))).map (·.lutOut) = some [0x2B#8] := by decide
theorem test_decNop_reads_no_unit : after (dec [19] false false 0#8) 16 0x054 = some ([19], false, false, []) := by decide
-- R103's example: pend = [19, 22, 5], DEC_SYM(46)
theorem test_decSym_completes_group :
    after (dec [19, 22, 5] false false 0#8) 16 0x175 = some ([], false, false, [0x034D616E]) := by decide
-- R103: a symbol after padding, in skip-invalid mode
theorem test_decSym_after_padding_fails :
    after (dec [19, 16] true false 1#8) 16 0x154 = some ([19, 16], true, true, []) := by decide
-- R104's example: "TQ" then "="
theorem test_decPad : after (dec [19, 16] false false 0#8) 16 0x13D = some ([19, 16], true, false, []) := by decide
-- R105: `!` in strict mode, with opt[7:1] all ones (B12)
theorem test_decInv_strict : after (dec [19] false false 0xFE#8) 16 0x121 = some ([19], false, true, []) := by decide
theorem test_decInv_skip : after (dec [19] false false 0xFF#8) 16 0x121 = some ([19], false, false, []) := by decide
theorem test_decb_B5 :
    after (dec [19, 22, 5] false false 0#8) 40 0x0F75215451 = some ([], false, true, [0x034D616E]) := by decide
theorem test_decb_B9 :
    after (dec [19, 22] false false 1#8) 40 0x0F210A2046 = some ([19, 22, 5], false, false, []) := by decide
theorem test_decEnd_B4 :
    after (dec [19, 22, 5] false false 0#8) 40 0x1F75545745 = some ([], false, false, [0x034D616E, 0x124D6100]) := by
  decide
theorem test_decEnd_B7 :
    after (dec [19, 16] true false 1#8) 40 0x1F54574675 = some ([], false, false, [0x1C000000]) := by decide

/-! ### The host's other actions -/

-- R32: a beat offered while `oq` holds one is not accepted
theorem test_not_ready : (nextOf (step ({ State.reset with oq := [endBeat 0#2 0#8 0#8] }.withFetchWord 16 0x154))).map
    (fun t => (t.codec.pend, t.oq.length)) = some ([], 1) := by decide
-- P7: reset in mid-message
theorem test_reset_drops_pending :
    (nextOf (step { dec [19, 22, 5] true true 0#8 with schedule := [.assertRst], oq := [endBeat 0#2 0#8 0#8] })).map
      (fun t => (t.codec, t.oq)) = some (Codec.reset, []) := by decide
theorem test_stray_bit_is_no_beat :
    nextOf (step (State.reset.withFetchWord 32 0x8000000)) = none := by decide
-- E28, D5: whole messages
theorem test_encode_E28 : encodeText [0x4D#8, 0x61#8, 0x6E#8, 0x4D#8] =
    [0x54#8, 0x57#8, 0x46#8, 0x75#8, 0x54#8, 0x51#8, 0x3D#8, 0x3D#8] := by decide
theorem test_decode_D5 : decodeText [0x54#8, 0x57#8, 0x46#8, 0x75#8, 0x54#8, 0x51#8, 0x3D#8, 0x3D#8] false =
    .ok [0x4D#8, 0x61#8, 0x6E#8, 0x4D#8] := by decide
theorem test_decode_D13 : decodeText [0x54#8, 0x3D#8, 0x51#8, 0x3D#8] true = .error .invalidInput := by decide

/-! ### Witnesses: the hypotheses of the obligations are met, clause by clause -/

/-- A state whose next action offers `ENC3.L 4D 61 6E`. -/
def offering : State := State.reset.withFetchWord 32 0x74D616E

theorem witness_StepRunsDecodedBeat :
    offering.schedule = .present { nbits := 32, bits := 0x74D616E } :: []
      ∧ decode { nbits := 32, bits := 0x74D616E } = .ok (.enc3 true 0x4D#8 0x61#8 0x6E#8) := by decide

/-- A state with one beat to take and one action to come. -/
def owing (a : HostAction) : State :=
  { State.reset with oq := [endBeat 0#2 0#8 0#8], schedule := [a] }

theorem witness_StepPerformsOtherActions :
    ((owing .take).schedule = .take :: [] ∧ (owing .take).oq = endBeat 0#2 0#8 0#8 :: [])
      ∧ ({ State.reset with schedule := [.take] }.schedule = .take :: []
          ∧ { State.reset with schedule := [.take] }.oq = ([] : List DecOutBeat))
      ∧ (owing (.driveOpt 0xFF#8)).schedule = .driveOpt 0xFF#8 :: []
      ∧ (owing .assertRst).schedule = .assertRst :: []
      ∧ ((owing (.present { nbits := 16, bits := 512 })).schedule = .present { nbits := 16, bits := 512 } :: []
          ∧ decode { nbits := 16, bits := 512 } = .error (.strayBits .decLane))
      ∧ State.reset.schedule = [] := by decide

theorem witness_DecodeEncodeAgree :
    Instr.wellFormed (.decInv 0xFF#8) = true ∧ Instr.wellFormed (.decSym 63#6) = true := by decide

theorem witness_EncodeDecodeAgree :
    decode { nbits := 40, bits := 0x1F54574675 } =
      .ok (.decEnd (unitLane 0x54#8) (unitLane 0x57#8) (unitLane 0x46#8) (unitLane 0x75#8)) := by decide

theorem witness_EveryPatternHasAResult : 0x7FFFFFF < 2 ^ Format.encIn.width ∧ 0x1FFFFFFFFF < 2 ^ Format.decIn.width
    ∧ 0x1FF < 2 ^ Format.decLane.width ∧ 0x3F < 2 ^ Format.sextet.width := by decide

/-- The boundary units of each row of R53's table. -/
theorem witness_UnitClasses :
    (0x30#8 ≤ 0x30#8 ∧ 0x39#8 ≤ 0x39#8) ∧ (0x41#8 ≤ 0x5A#8 ∧ 0x41#8 ≤ 0x5A#8) ∧ (0x61#8 ≤ 0x7A#8)
      ∧ (0x2A#8 ≤ 0x2A#8 ∧ 0x2C#8 ≤ 0x2E#8 ∧ 0x3A#8 ≤ 0x3C#8 ∧ 0x3E#8 ≤ 0x40#8 ∧ 0x5B#8 ≤ 0x60#8 ∧ 0x7B#8 ≤ 0xFF#8)
      ∧ decClass 0x40#8 = .inv ∧ decClass 0x41#8 = .sym 0#6 ∧ decClass 0x5A#8 = .sym 25#6 ∧ decClass 0x5B#8 = .inv
      ∧ decClass 0x60#8 = .inv ∧ decClass 0x61#8 = .sym 26#6 ∧ decClass 0x7A#8 = .sym 51#6 ∧ decClass 0x7B#8 = .inv
      ∧ decClass 0x2A#8 = .inv ∧ decClass 0x2C#8 = .inv ∧ decClass 0x2E#8 = .inv ∧ decClass 0x3A#8 = .inv
      ∧ decClass 0x3C#8 = .inv ∧ decClass 0x3E#8 = .inv ∧ decClass 0xFF#8 = .inv := by decide

theorem witness_AlphabetInvariants : decClass 0x2F#8 = .sym 63#6 ∧ encLut 63#6 = encLut 63#6 := by decide

theorem witness_EncoderOneBeatPerBeat :
    ({ last := true, count := 3#2, b0 := 0#8, b1 := 0#8, b2 := 0#8 } : EncIn).count = 3#2
      ∧ ({ last := true, count := 2#2, b0 := 0#8, b1 := 0#8, b2 := 0#8 } : EncIn).count = 2#2
      ∧ ({ last := true, count := 1#2, b0 := 0#8, b1 := 0#8, b2 := 0#8 } : EncIn).count = 1#2
      ∧ ({ last := true, count := 0#2, b0 := 0#8, b1 := 0#8, b2 := 0#8 } : EncIn).count = 0#2 := by decide

/-- P1's beats. -/
def p1 : List EncIn :=
  [{ last := false, count := 3#2, b0 := 0x4D#8, b1 := 0x61#8, b2 := 0x6E#8 },
   { last := true, count := 1#2, b0 := 0x4D#8, b1 := 0#8, b2 := 0#8 }]

theorem witness_EncoderAnyBeatSequence :
    { State.reset with schedule := sendEnc p1 }.schedule = sendEnc p1 ++ [] := by decide

theorem witness_EncodeMessageBeats :
    encFramed p1 = true ∧ { State.reset with schedule := sendEnc p1 }.schedule = sendEnc p1 ++ [] := by decide

theorem witness_EncodeAlphabet :
    0x3D#8 ∈ encodeText [0x4D#8]
      ∧ 0x54#8 ∈ EncOutBeat.chars (EncIn.out { last := true, count := 1#2, b0 := 0x4D#8, b1 := 0#8, b2 := 0#8 }) := by
  decide

theorem witness_HostEncodeObtainsEncode :
    { State.reset with schedule := hostEncode [0x4D#8] }.schedule = hostEncode [0x4D#8] ++ [] := by decide

/-- The cases of DEC_SYM, at zero, two and three pending sextets. -/
theorem witness_LaneOperations :
    (dec [19, 22, 5] false false 0#8).codec.pend.length ≤ 3
      ∧ (dec [19, 22, 5] true true 0#8).codec.failed = true
      ∧ ((dec [19] true false 0#8).codec.failed = false ∧ (dec [19] true false 0#8).codec.padSeen = true)
      ∧ ((dec [19, 22] false false 0#8).codec.failed = false ∧ (dec [19, 22] false false 0#8).codec.padSeen = false
          ∧ (dec [19, 22] false false 0#8).codec.pend.length < 3)
      ∧ ((dec [19, 22, 5] false false 0#8).codec.failed = false ∧ (dec [19, 22, 5] false false 0#8).codec.padSeen = false
          ∧ (dec [19, 22, 5] false false 0#8).codec.pend = [19#6, 22#6, 5#6]) := by decide

theorem witness_DecSymResult :
    (dec [19, 22, 5] false true 0#8).oq = [] ∧ (dec [19, 22, 5] false true 0#8).codec.failed = true
      ∧ ((dec [] true false 0#8).oq = [] ∧ (dec [] true false 0#8).codec.failed = false
          ∧ (dec [] true false 0#8).codec.padSeen = true)
      ∧ ((dec [19, 22] false false 0#8).oq = [] ∧ (dec [19, 22] false false 0#8).codec.failed = false
          ∧ (dec [19, 22] false false 0#8).codec.padSeen = false ∧ (dec [19, 22] false false 0#8).codec.pend.length < 3)
      ∧ ((dec [19, 22, 5] false false 0#8).oq = [] ∧ (dec [19, 22, 5] false false 0#8).codec.failed = false
          ∧ (dec [19, 22, 5] false false 0#8).codec.padSeen = false
          ∧ (dec [19, 22, 5] false false 0#8).codec.pend = [19#6, 22#6, 5#6]) := by decide

theorem witness_DecPadResult :
    ((dec [] false true 0#8).oq = [] ∧ (dec [] false true 0#8).codec.failed = true)
      ∧ (dec [] false false 0#8).oq = [] ∧ (dec [] false false 0#8).codec.failed = false := by decide

theorem witness_DecInvResult :
    ((dec [] false true 0#8).oq = [] ∧ (dec [] false true 0#8).codec.failed = true)
      ∧ ((dec [] false false 1#8).oq = [] ∧ (dec [] false false 1#8).opt.getLsbD 0 = true)
      ∧ (dec [] false false 0xFE#8).oq = [] ∧ (dec [] false false 0xFE#8).codec.failed = false
      ∧ (dec [] false false 0xFE#8).opt.getLsbD 0 = false := by decide

theorem witness_DecEndResult :
    (State.reset.oq = [] ∧ State.reset.codec.failed = false ∧ State.reset.codec.pend = [])
      ∧ (dec [19] false false 0#8).codec.pend.length = 1 ∧ (dec [] false true 0#8).codec.failed = true
      ∧ ((dec [19, 16] true false 0#8).codec.failed = false ∧ (dec [19, 16] true false 0#8).codec.pend = [19#6, 16#6])
      ∧ (dec [19, 22, 4] true false 0#8).codec.failed = false
      ∧ (dec [19, 22, 4] true false 0#8).codec.pend = [19#6, 22#6, 4#6] := by decide

theorem witness_DecbIsItsFourLanes_and_DecBeatFold : (dec [19] false false 0#8).oq = [] := by decide

theorem witness_NotReadyChangesNothing :
    Instr.format (.decNop 0#8) = .decLane ∧ Instr.format (.decb noLane noLane noLane noLane) = .decIn
      ∧ (owing .take).oq ≠ [] := by decide

theorem witness_AtMostTwoBeatsPerBeat :
    (dec [19, 22, 5] false false 0#8).codec.pend.length ≤ 3
      ∧ (decBeat false true [unitLane 0x75#8, unitLane 0x54#8, unitLane 0x57#8, unitLane 0x45#8]
          (dec [19, 22, 5] false false 0#8).codec).2.length = 2 := by decide

theorem witness_FailedMessageDrains : (dec [19] false true 0#8).oq = [] ∧ (dec [19] false true 0#8).codec.failed = true := by
  decide

theorem witness_RaisingSetsOnlyFailed :
    (dec [19] true false 0#8).codec.failed = false
      ∧ (decLane true (unitLane 0x54#8) (dec [19] true false 0#8).codec).1.failed = true
      ∧ (dec [19] false true 0#8).codec.failed = true ∧ (dec [19] false false 0#8).codec.pend.length = 1 := by decide

theorem witness_FailureCauses :
    (dec [19] true false 0#8).codec.failed = false ∧ (decEndOp (dec [19] false false 0#8).codec).2.err = true := by decide

theorem witness_OnlyDecEndClearsFlags :
    (nextOf (exec .decPad (dec [19] true true 0#8))).isSome = true ∧ (dec [19] true true 0#8).codec.failed = true
      ∧ (dec [19] true true 0#8).codec.padSeen = true ∧ ∀ l0 l1 l2 l3, Instr.decPad ≠ .decEnd l0 l1 l2 l3 := by
  refine ⟨by decide, by decide, by decide, ?_⟩
  intro l0 l1 l2 l3 h
  cases h

theorem witness_ResetAction :
    (DecPortsIn.mk (rst := true) (inValid := true) 0#32 0#4 true 0#8 (outReady := true)).rst = true
    ∧ nextOf (perform .assertRst (owing .take)) = some { owing .take with oq := [] } := by decide

theorem witness_OnlyOptBitZeroIsRead : (0xFE#8).getLsbD 0 = (0x00#8).getLsbD 0 ∧ (0xFF#8).getLsbD 0 = (0x01#8).getLsbD 0 := by
  decide

/-- Port values for one edge: `DECB 'T' -- -- --` offered, or not, with the consumer ready, or not. -/
def edge (rst inValid outReady : Bool) : DecPortsIn :=
  { rst := rst, inValid := inValid, inUnits := 0x54000000#32, inKeep := 8#4, inLast := false, opt := 0#8
    outReady := outReady }

-- R25, R56: the word on the port is that of `DECB 'T' 'W' 'F' 'u'` (P2), and of `DECB 'T' -- -- --`
theorem test_port_word :
    DecPortsIn.beatWord { edge false true true with inUnits := 0x54574675#32, inKeep := 0b1111#4 }
        = { nbits := 40, bits := 0x0F54574675 }
      ∧ (edge false true true).beatWord = { nbits := 40, bits := 0x0854000000 } := by decide

-- R25, R36: the output fields show the head of `oq`, byte lane 0 in the most significant bits
theorem test_port_fields :
    (decPorts { State.reset with oq := [dataBeat { y0 := 0x4D#8, y1 := 0x61#8, y2 := 0x6E#8 }] }).fields
      = some { outBytes := 0x4D616E#24, outCount := 3#2, outLast := false, outErr := false, outKind := 0#1 } := by
  decide

theorem witness_ClockEdgeIsOneTransaction :
    (edge true true true).rst = true
      ∧ ((edge false true true).inValid = true ∧ (decPorts State.reset).inReady = true)
      ∧ ((decPorts (owing .take)).outValid = true ∧ (edge false true true).outReady = true)
      ∧ ((decPorts (owing .take)).inReady = false ∧ (edge false true false).outReady = false)
      ∧ ((edge false true true).rst = false ∧ (owing .take).oq ≠ [] ∧ State.reset.oq = [])
      ∧ (clockEdge (edge false true true) State.reset).codec.pend = [19#6] := by decide

theorem witness_BlocksAreIndependent :
    (nextOf (exec (.enc1 true 0x4D#8 0#8 0#8) (dec [19] true false 0#8))).isSome = true
      ∧ (nextOf (exec (.encLut 0#6) (dec [19] true false 0#8))).isSome = true
      ∧ (nextOf (exec (.decSym 0#6) (dec [19] false false 0#8))).isSome = true
      ∧ (nextOf (exec (.decb noLane noLane noLane noLane) (dec [19] false false 0#8))).isSome = true := by decide

theorem witness_DecoderReadsOnlyItsState :
    Instr.format (.decSym 19#6) = .decLane
      ∧ (dec [] false false 0xFE#8).codec = offering.codec ∧ (dec [] false false 0xFE#8).oq = offering.oq
      ∧ (dec [] false false 0xFE#8).opt.getLsbD 0 = offering.opt.getLsbD 0
      ∧ (nextOf (exec (.decSym 19#6) offering)).isSome = true
      ∧ (nextOf (exec (.decSym 19#6) (dec [] false false 0xFE#8))).isSome = true := by decide

theorem witness_StepKeepsInvariant : (owing .take).Inv ∧ (nextOf (step (owing .take))).isSome = true := by decide

theorem witness_UnknownIsNeverReported :
    (∀ b ∈ (owing .take).oq ++ (owing .take).decRecv, b.reportsUnknown = false)
      ∧ (nextOf (step (owing .take))).isSome = true
      ∧ DecOutBeat.reportsUnknown { failBeat .invalidInput with kind := ErrorKind.unknown.code } = true := by decide

theorem witness_TwoTakesMakeReady :
    { State.reset with oq := [dataBeat { y0 := 1#8, y1 := 2#8, y2 := 3#8 }, endBeat 0#2 0#8 0#8]
                       schedule := [.take, .take] }.Inv := by decide

theorem witness_SkipModeIsFilter : [0x54#8, 0x21#8].any isInv = true
    ∧ symAfterPad [0x3D#8, 0x51#8] = true ∧ ([0x54#8].filter isSym).length % 4 = 1 := by decide

theorem witness_DecodeLength : (dec [19, 22, 5] false false 0#8).codec.pendCnt ≤ 3
    ∧ decodeText [0x54#8, 0x51#8] false = .ok [0x4D#8]
    ∧ decodeText [0x54#8, 0x57#8, 0x45#8, 0x3D#8] true = .ok [0x4D#8, 0x61#8] := by decide

theorem witness_UnusedBitsAreDiscarded :
    (16#6).extractLsb' 4 2 = (17#6).extractLsb' 4 2 ∧ (4#6).extractLsb' 2 4 = (7#6).extractLsb' 2 4 := by decide

/-- P2's beats. -/
def p2 : List DecIn :=
  [{ last := false, l0 := unitLane 0x54#8, l1 := unitLane 0x57#8, l2 := unitLane 0x46#8, l3 := unitLane 0x75#8 },
   { last := true, l0 := unitLane 0x54#8, l1 := unitLane 0x51#8, l2 := unitLane 0x3D#8, l3 := unitLane 0x3D#8 }]

/-- P2 as the spec traces it: ACCEPT, DELIVER, ACCEPT, DELIVER, with `opt[7:1]` changed between the beats. -/
def p2Trace : List HostAction :=
  [.driveOpt 0xFE#8, .present { nbits := 40, bits := 0x0F54574675 }, .take, .driveOpt 0x02#8,
   .present { nbits := 40, bits := 0x1F54513D3D }, .take]

/-- P3 in skip-invalid mode, ACCEPT, ACCEPT, DELIVER, DELIVER, with a take of nothing before, an offer that is not accepted
and an encoder beat in between. -/
def p3Trace : List HostAction :=
  [.driveOpt 1#8, .take, .present { nbits := 40, bits := 0x0F54572146 }, .present { nbits := 40, bits := 0x1C750A0000 },
   .present { nbits := 40, bits := 0x1C750A0000 }, .present { nbits := 32, bits := 0x74D616E }, .take, .take]

/-- The same message with its second beat written as the lane rows of the table and an empty last beat. -/
def lanesTrace : List HostAction :=
  [.present { nbits := 40, bits := 0x0F54572146 }, .present { nbits := 16, bits := 0x175 }, .take,
   .present { nbits := 16, bits := 0x10A }, .present { nbits := 40, bits := 0x1000000000 }, .take]

/-- The words of the beats accepted in a run of the trace from reset, each with its value of `opt[0]`. -/
def acceptedWords (o : OptWord) (as : List HostAction) : List (Nat × Bool) :=
  (acceptedBeats as.length { State.reset with schedule := as, opt := o }).map fun p => (p.1.word.bits, p.2.getLsbD 0)

/-- The words the decoder's consumer has received after a run of the trace from reset. -/
def received (o : OptWord) (as : List HostAction) : Option (List Nat) :=
  (nextOf (core.run as.length { State.reset with schedule := as, opt := o })).map fun t => t.decRecv.map (·.word.toNat)

-- P2, P3: the output beats of the spec's traces
theorem test_run_P2 : received 0#8 p2Trace = some [0x034D616E, 0x114D0000] := by decide
theorem test_run_P3_skip : received 0#8 p3Trace = some [0x034D616E, 0x10000000] := by decide

theorem test_accepted_P2 : acceptedWords 0#8 p2Trace = [(0x0F54574675, false), (0x1F54513D3D, false)] := by decide
theorem test_accepted_P3 : acceptedWords 0#8 p3Trace = [(0x0F54572146, true), (0x1C750A0000, true)] := by decide
theorem test_accepted_lanes : acceptedWords 1#8 lanesTrace =
    [(0x0F54572146, true), (0x0875000000, true), (0x080A000000, true), (0x1000000000, true)] := by decide

/-- The premises on a run, all together. -/
def runPremises (as : List HostAction) (o : OptWord) (skip : Bool) : Bool :=
  as.all HostAction.continues
    && (acceptedBeats as.length { State.reset with schedule := as, opt := o }).all (fun p => p.2.getLsbD 0 == skip)
    && decFramed ((acceptedBeats as.length { State.reset with schedule := as, opt := o }).map Prod.fst)

theorem witness_DecodeMessageBeats :
    (runPremises p2Trace 0#8 false = true ∧ runPremises p3Trace 0#8 true = true ∧ runPremises lanesTrace 1#8 true = true
        ∧ runPremises (p3Trace.set 0 (.driveOpt 0#8)) 0#8 false = true)
      ∧ decFramed p2 = true ∧ { State.reset with schedule := sendDec p2 }.codec = Codec.reset
      ∧ { State.reset with schedule := sendDec p2 }.oq = ([] : List DecOutBeat)
      ∧ { State.reset with schedule := sendDec p2 }.schedule = sendDec p2 ++ []
      ∧ decodeText (p2.flatMap DecIn.units) false = .ok [0x4D#8, 0x61#8, 0x6E#8, 0x4D#8]
      ∧ decodeText (p2.flatMap DecIn.units ++ [0x21#8]) false = .error .invalidInput := by decide

theorem witness_HostDecodeObtainsDecode :
    ({ State.reset with schedule := hostDecode [0x54#8, 0x21#8] 0x1FF }.codec = Codec.reset
        ∧ { State.reset with schedule := hostDecode [0x54#8, 0x21#8] 0x1FF }.oq = ([] : List DecOutBeat)
        ∧ { State.reset with schedule := hostDecode [0x54#8, 0x21#8] 0x1FF }.schedule
            = hostDecode [0x54#8, 0x21#8] 0x1FF ++ [])
      ∧ runPremises p3Trace 0#8 ((hostOpt 0x1FF).getLsbD 0) = true
      ∧ ((acceptedBeats p3Trace.length { State.reset with schedule := p3Trace }).map Prod.fst).flatMap DecIn.units
          = [0x54#8, 0x57#8, 0x21#8, 0x46#8, 0x75#8, 0x0A#8] := by decide

theorem witness_PublicOperationsObtained :
    { State.reset with schedule := PublicOp.actions (.encodeToBytes [0x4D#8]) }.schedule
        = PublicOp.actions (.encodeToBytes [0x4D#8]) ++ []
      ∧ { State.reset with schedule := PublicOp.actions (.decodeFromTextStrict [0x54#8]) }.schedule
        = PublicOp.actions (.decodeFromTextStrict [0x54#8]) ++ []
      ∧ { State.reset with schedule := PublicOp.actions (.decodeFromTextStrict [0x54#8]) }.codec = Codec.reset
      ∧ { State.reset with schedule := PublicOp.actions (.decodeFromTextStrict [0x54#8]) }.oq = ([] : List DecOutBeat)
      ∧ PublicOp.usesEncoder (.encodeToBytes [0x4D#8]) = true
      ∧ PublicOp.usesEncoder (.decodeFromTextStrict [0x54#8]) = false := by decide

-- R135: the convenience forms present `opt = 0x00`, answer the empty sequence on a failure, and the bytes else (D14)
theorem test_convenience :
    (hostDecodeStrict [0x54#8]).head? = some (.driveOpt 0x00#8)
      ∧ strictResult [failBeat .invalidInput] = some []
      ∧ strictResult [endBeat 2#2 0x4D#8 0x61#8] = some [0x4D#8, 0x61#8] := by decide

theorem witness_ResetAbortsTheMessage :
    { dec [19] true false 0#8 with schedule := .assertRst :: hostDecode [0x54#8] 0 }.schedule
        = .assertRst :: (hostDecode [0x54#8] 0 ++ [])
      ∧ { dec [19] true false 0#8 with schedule := .assertRst :: p2Trace }.schedule = .assertRst :: p2Trace
      ∧ runPremises p2Trace 0#8 false = true := by decide

theorem witness_EmptyInput : State.reset.codec = Codec.reset ∧ State.reset.oq = [] := by decide

end Sys2Proof.Tests
end

/-! ## The state: its invariant, the encoder's ports, the options word, reset -/

namespace Sys2Proof.Machine

/-! ### Offered words -/

/-- An operation that a word decodes to is one of the blocks' operations. -/
theorem decode_wellFormed {w : BeatWord} {i : Instr} (h : decode w = .ok i) : i.wellFormed = true := by
  cases i with
  | decInv u => simpa [Instr.wellFormed] using decode_decInv h
  | _ => rfl

/-- The operation of an `ENC_IN` word is the one its `count` selects, with the word's own fields (R54, R61). -/
theorem decode_encInWord (last : Bool) (count : BitVec 2) (b0 b1 b2 : Byte) :
    decode (encInWord last count b0 b1 b2) =
      .ok (if count = 3#2 then .enc3 last b0 b1 b2
        else if count = 2#2 then .enc2 last b0 b1 b2
        else if count = 1#2 then .enc1 last b0 b1 b2
        else .enc0 last b0 b1 b2) := by
  have hc := count.isLt
  have h0 := b0.isLt
  have h1 := b1.isLt
  have h2 := b2.isLt
  have hdecode : decode (encInWord last count b0 b1 b2) = .ok (decodeEncIn (encInWord last count b0 b1 b2).bits) :=
    decode_fits (f := .encIn) rfl (Laws.EncodesInFormat.encIn_fits last count b0 b1 b2)
  rw [hdecode]
  generalize hn : (encInWord last count b0 b1 b2).bits = n
  simp only [encInWord] at hn
  have hlast : bitAt n 26 = last :=
    bitAt_field (hi := 0) (low := 2 ^ 24 * count.toNat + 2 ^ 16 * b0.toNat + 2 ^ 8 * b1.toNat + b2.toNat) last
      (by omega) (by omega)
  have hcount : slice n 24 2 = count :=
    slice_field (hi := last.toNat) (low := 2 ^ 16 * b0.toNat + 2 ^ 8 * b1.toNat + b2.toNat) count
      (by omega) (by omega)
  have hb0 : slice n 16 8 = b0 :=
    slice_field (hi := 2 ^ 2 * last.toNat + count.toNat) (low := 2 ^ 8 * b1.toNat + b2.toNat) b0
      (by omega) (by omega)
  have hb1 : slice n 8 8 = b1 :=
    slice_field (hi := 2 ^ 10 * last.toNat + 2 ^ 8 * count.toNat + b0.toNat) (low := b2.toNat) b1
      (by omega) (by omega)
  have hb2 : slice n 0 8 = b2 :=
    slice_field (hi := 2 ^ 18 * last.toNat + 2 ^ 16 * count.toNat + 2 ^ 8 * b0.toNat + b1.toNat) (low := 0) b2
      (by omega) (by omega)
  simp only [decodeEncIn, hlast, hcount, hb0, hb1, hb2]

/-- Offering an `ENC_IN` word transfers the beat `EncBeat` of its fields, in every state (R86). -/
theorem perform_encInWord (last : Bool) (count : BitVec 2) (b0 b1 b2 : Byte) (s : State) :
    perform (.present (encInWord last count b0 b1 b2)) s = .next (transferEnc (encBeat last count b0 b1 b2) s) := by
  rw [perform_present (decode_encInWord last count b0 b1 b2), encBeat]
  split_ifs <;> rfl

/-! ### Legal output beats -/

/-- A character of the alphabet is text (R92). -/
theorem isText_encLut : ∀ v : Sextet, isText (encLut v) = true := by decide

theorem isText_padChar : isText padChar = true := by decide

/-- Every output beat of the encoder has one of the two shapes of R55. -/
theorem encOut_legal (b : EncIn) : b.out.legal = true := by
  unfold EncIn.out encBeat
  split_ifs
  · simp [enc3Out, EncOutBeat.legal, isText_encLut]
  · simp [enc2Out, EncOutBeat.legal, isText_encLut, isText_padChar]
  · simp [enc1Out, EncOutBeat.legal, isText_encLut, isText_padChar]
  · rfl

theorem isData_legal {b : DecOutBeat} (h : b.isData = true) : b.legal = true := by
  simp [DecOutBeat.legal, h]

/-- Every END beat has one of the two END shapes of R58. -/
theorem endOf_legal (c : Codec) : (endOf c).legal = true := by
  unfold endOf
  split
  · rfl
  · split
    · rfl
    · rfl
    · simp [endBeat, DecOutBeat.legal, DecOutBeat.isEndOk]
    · simp [endBeat, DecOutBeat.legal, DecOutBeat.isEndOk]

/-! ### The response to a beat -/

/-- A beat that is not last is its lanes. -/
theorem decBeat_notLast (skip : Bool) (ls : List Lane) (c : Codec) :
    decBeat skip false ls c = decLanes skip ls c := rfl

/-- A last beat ends the message after its lanes: the END beat follows theirs, and the codec state is that of reset. -/
theorem decBeat_last (skip : Bool) (ls : List Lane) (c : Codec) :
    decBeat skip true ls c = (Codec.reset, (decLanes skip ls c).2 ++ [endOf (decLanes skip ls c).1]) := rfl

/-- The lanes of one beat complete at most one group, because at most three sextets were pending (R12, R15). -/
theorem decLanes_length_le_one {skip : Bool} {ls : List Lane} {c : Codec} (hls : ls.length ≤ 4)
    (hp : c.pend.length ≤ 3) : (decLanes skip ls c).2.length ≤ 1 := by
  have := (decLanes_bounds skip ls c hp).2
  omega

/-! ### The invariant, action by action -/

/-- The decoder takes a beat of at most four lanes only with `oq` empty, so `oq` then holds that beat's response and
nothing older: at most one data beat, and after it the END beat over a reset codec state. -/
theorem acceptBeat_keeps_inv {skip last : Bool} {ls : List Lane} {s : State} (hls : ls.length ≤ 4) (h : s.Inv) :
    (acceptBeat (decBeat skip last ls) s).Inv := by
  by_cases hoq : s.oq = []
  case neg => rwa [acceptBeat_busy hoq]
  case pos =>
    obtain ⟨hpend, -, -, hdec, henc, -⟩ := h
    have hone := decLanes_length_le_one (skip := skip) hls hpend
    have hdata := decLanes_data skip ls s.codec
    rw [acceptBeat_ready hoq]
    cases last with
    | false =>
      rw [decBeat_notLast]
      refine ⟨(decLanes_bounds skip ls s.codec hpend).1, hone.trans (by decide),
        fun b hb => isData_legal (hdata b hb), hdec, henc, fun b hb hlast => ?_⟩
      rw [isData_last (hdata b hb)] at hlast
      cases hlast
    | true =>
      rw [decBeat_last]
      refine ⟨by simp, by simpa [Config.oqDepth] using hone, fun b hb => ?legal, hdec, henc,
        fun b hb hlast => ?ended⟩
      case legal =>
        rcases List.mem_append.1 hb with hb | hb
        · exact isData_legal (hdata b hb)
        · rw [List.mem_singleton.1 hb]
          exact endOf_legal _
      case ended =>
        rcases List.mem_append.1 hb with hb | hb
        · rw [isData_last (hdata b hb)] at hlast
          cases hlast
        · simp [List.mem_singleton.1 hb]

/-- A legal beat of the encoder joins the received ones; the decoder is not touched. -/
theorem transferEnc_keeps_inv {b : EncOutBeat} {s : State} (hb : b.legal = true) (h : s.Inv) :
    (transferEnc b s).Inv := by
  obtain ⟨hpend, hlen, hoq, hdec, henc, hend⟩ := h
  refine ⟨hpend, hlen, hoq, hdec, fun b' hb' => ?_, hend⟩
  rcases List.mem_append.1 hb' with hb' | hb'
  · exact henc b' hb'
  · rwa [List.mem_singleton.1 hb']

/-- Delivery hands the head of `oq` over; an END beat behind it stays last. -/
theorem deliver_keeps_inv {s : State} (h : s.Inv) : (deliver s).Inv := by
  cases hq : s.oq with
  | nil => rwa [deliver_empty hq]
  | cons b rest =>
    obtain ⟨hpend, hlen, hoq, hdec, henc, hend⟩ := h
    rw [hq] at hlen hoq hend
    rw [deliver_cons hq]
    refine ⟨hpend, (Nat.le_succ _).trans hlen, fun b' hb' => hoq b' (List.mem_cons_of_mem _ hb'), fun b' hb' => ?_,
      henc, fun b' hb' hlast => ?_⟩
    · rcases List.mem_append.1 hb' with hb' | hb'
      · exact hdec b' hb'
      · rw [List.mem_singleton.1 hb']
        exact hoq b List.mem_cons_self
    · obtain ⟨hcodec, hget⟩ := hend b' (List.mem_cons_of_mem _ hb') hlast
      rw [List.getLast?_cons_of_ne_nil (List.ne_nil_of_mem hb')] at hget
      exact ⟨hcodec, hget⟩

/-- A reset empties the decoder; what the consumers have received stays. -/
theorem resetDecoder_keeps_inv {s : State} (h : s.Inv) : (resetDecoder s).Inv := by
  obtain ⟨-, -, -, hdec, henc, -⟩ := h
  exact ⟨by simp, by simp, by simp, hdec, henc, by simp⟩

/-- Every operation of the blocks keeps the invariant. -/
theorem exec_keeps_inv {i : Instr} {s t : State} (hw : i.wellFormed = true) (h : s.Inv) (he : exec i s = .next t) :
    t.Inv := by
  have decoder (hi : i.format = .decIn ∨ i.format = .decLane) : t.Inv := by
    obtain ⟨last, ls, hls, e⟩ := exec_decoder hi hw s
    obtain rfl := Host.Outcome.next.inj (e.symm.trans he)
    exact acceptBeat_keeps_inv hls h
  cases hi : i.format with
  | decIn => exact decoder (.inl hi)
  | decLane => exact decoder (.inr hi)
  | encIn =>
    obtain ⟨b, e⟩ := exec_encoder hi s
    obtain rfl := Host.Outcome.next.inj (e.symm.trans he)
    exact transferEnc_keeps_inv (encOut_legal b) h
  | sextet =>
    obtain ⟨v, -, e⟩ := exec_lut hi s
    obtain rfl := Host.Outcome.next.inj (e.symm.trans he)
    exact h

/-- Every action of the host keeps the invariant. -/
theorem perform_keeps_inv {a : HostAction} {s t : State} (h : s.Inv) (hp : perform a s = .next t) : t.Inv := by
  cases a with
  | present w =>
    cases hd : decode w with
    | error e =>
      rw [perform_noBeat hd] at hp
      cases hp
    | ok i =>
      rw [perform_present hd] at hp
      exact exec_keeps_inv (decode_wellFormed hd) h hp
  | take =>
    obtain rfl := Host.Outcome.next.inj hp
    exact deliver_keeps_inv h
  | driveOpt o =>
    obtain rfl := Host.Outcome.next.inj hp
    exact h
  | assertRst =>
    obtain rfl := Host.Outcome.next.inj hp
    exact resetDecoder_keeps_inv h

/-- Settles O46: a step is idle or performs one action, and every action keeps the invariant, which does not read the
schedule. -/
theorem stepKeepsInvariant : Obligations.StepKeepsInvariant := by
  intro s t h hstep
  cases hs : s.schedule with
  | nil =>
    rw [step_idle hs] at hstep
    obtain rfl := Host.Outcome.next.inj hstep
    exact h
  | cons a rest =>
    rw [step_cons hs] at hstep
    exact perform_keeps_inv (s := { s with schedule := rest }) h hstep

/-! ### The encoder's ports -/

/-- Settles O18: the ports show the fields of `EncBeat`, and so does the beat that offering the port's word
transfers. -/
theorem encoderPortsAgree : Obligations.EncoderPortsAgree := by
  intro p s
  have htransfer := perform_encInWord p.inLast p.inCount (p.inData.extractLsb' 16 8) (p.inData.extractLsb' 8 8)
    (p.inData.extractLsb' 0 8) s
  exact ⟨rfl, rfl, _, htransfer, rfl, rfl, rfl⟩

/-! ### The options word -/

/-- Acceptance of a beat does not read `opt` beyond what the response was given, and does not write it. -/
theorem acceptBeat_withOpt (respond : Codec → Codec × List DecOutBeat) (s : State) (o : OptWord) :
    acceptBeat respond { s with opt := o } = { acceptBeat respond s with opt := o } := by
  unfold acceptBeat
  split <;> rfl

/-- An operation that accepts a beat with the same response under two option words gives the same result under both. -/
theorem exec_agree_of_accept {i : Instr} {s : State} {o o' : OptWord} (respond : Codec → Codec × List DecOutBeat)
    (h : exec i { s with opt := o } = .next (acceptBeat respond { s with opt := o }))
    (h' : exec i { s with opt := o' } = .next (acceptBeat respond { s with opt := o' })) :
    ∃ t : State, exec i { s with opt := o } = .next { t with opt := o }
      ∧ exec i { s with opt := o' } = .next { t with opt := o' } :=
  ⟨acceptBeat respond s, by rw [h, acceptBeat_withOpt], by rw [h', acceptBeat_withOpt]⟩

/-- Settles O42: encoder beats and look-ups never read `opt`; a decoder operation reads it through `skipOf` alone, which
is bit 0. -/
theorem onlyOptBitZeroIsRead : Obligations.OnlyOptBitZeroIsRead := by
  intro i s o o' hbit
  have hskip : skipOf o' = skipOf o := hbit.symm
  cases i with
  | enc0 last => exact ⟨transferEnc (enc0Out last) s, rfl, rfl⟩
  | enc1 last b0 => exact ⟨transferEnc (enc1Out last b0) s, rfl, rfl⟩
  | enc2 last b0 b1 => exact ⟨transferEnc (enc2Out last b0 b1) s, rfl, rfl⟩
  | enc3 last b0 b1 b2 => exact ⟨transferEnc (enc3Out last b0 b1 b2) s, rfl, rfl⟩
  | encLut v => exact ⟨answerLut (encLut v) s, rfl, rfl⟩
  | decNop => exact exec_agree_of_accept (oneLane laneNop) rfl rfl
  | decSym v => exact exec_agree_of_accept (oneLane (laneSym v)) rfl rfl
  | decPad => exact exec_agree_of_accept (oneLane lanePad) rfl rfl
  | decInv => exact exec_agree_of_accept (oneLane (laneInv (skipOf o))) rfl (by rw [← hskip]; rfl)
  | decb l0 l1 l2 l3 =>
    exact exec_agree_of_accept (decBeat (skipOf o) false [l0, l1, l2, l3]) rfl (by rw [← hskip]; rfl)
  | decEnd l0 l1 l2 l3 =>
    exact exec_agree_of_accept (decBeat (skipOf o) true [l0, l1, l2, l3]) rfl (by rw [← hskip]; rfl)

/-! ### Reset -/

/-- Settles O41: the state after reset is written out in the model. -/
theorem resetValues : Obligations.ResetValues := ⟨rfl, rfl, rfl, rfl, rfl, rfl⟩

/-- Settles O47: after reset every buffer and every list of received beats is empty. -/
theorem resetHasInvariant : Obligations.ResetHasInvariant :=
  ⟨Nat.zero_le _, Nat.zero_le _, List.forall_mem_nil _, List.forall_mem_nil _, List.forall_mem_nil _,
    List.forall_mem_nil _⟩

end Sys2Proof.Machine

/-! ## The step, the blocks' independence, and the decoder's ports -/

namespace Sys2Proof.Machine

/-! ### Steps -/

/-- Settles O1: the step performs the offer, and the offer runs the operation its word decodes to. -/
theorem stepRunsDecodedBeat : Obligations.StepRunsDecodedBeat := by
  intro s w rest i hs hd
  rw [step_cons hs, perform_present hd]

/-- Settles O2: each clause is the action at the head of the schedule, performed on the state without it. -/
theorem stepPerformsOtherActions : Obligations.StepPerformsOtherActions := by
  intro s rest
  refine ⟨fun b bs hs hoq => ?take, fun hs hoq => ?takeNothing, fun o hs => ?driveOpt, fun hs => ?reset,
    fun w e hs hd => ?noBeat, step_idle⟩
  case take =>
    rw [step_cons hs, perform_take, deliver_cons (s := { s with schedule := rest }) hoq]
  case takeNothing =>
    rw [step_cons hs, perform_take, deliver_empty (s := { s with schedule := rest }) hoq]
  case driveOpt =>
    rw [step_cons hs, perform_driveOpt]
    rfl
  case reset =>
    rw [step_cons hs, perform_assertRst]
    rfl
  case noBeat =>
    rw [step_cons hs, perform_noBeat hd]

/-! ### What a decoder operation reads and writes -/

/-- Every decoder operation, well formed or not, offers the decoder one beat, whose response is fixed by the operation
and by `skip`; nothing else of the state enters the response (R40, R45). -/
theorem exec_decoder_response {i : Instr} (hi : i.format = .decIn ∨ i.format = .decLane) :
    ∃ respond : Bool → Codec → Codec × List DecOutBeat,
      ∀ s : State, exec i s = .next (acceptBeat (respond (skipOf s.opt)) s) := by
  cases i with
  | decNop => exact ⟨fun _ => oneLane laneNop, fun _ => rfl⟩
  | decSym v => exact ⟨fun _ => oneLane (laneSym v), fun _ => rfl⟩
  | decPad => exact ⟨fun _ => oneLane lanePad, fun _ => rfl⟩
  | decInv => exact ⟨fun skip => oneLane (laneInv skip), fun _ => rfl⟩
  | decb l0 l1 l2 l3 => exact ⟨fun skip => decBeat skip false [l0, l1, l2, l3], fun _ => rfl⟩
  | decEnd l0 l1 l2 l3 => exact ⟨fun skip => decBeat skip true [l0, l1, l2, l3], fun _ => rfl⟩
  | enc0 => simp [Instr.format] at hi
  | enc1 => simp [Instr.format] at hi
  | enc2 => simp [Instr.format] at hi
  | enc3 => simp [Instr.format] at hi
  | encLut => simp [Instr.format] at hi

/-- Acceptance acts on the decoder by its codec state and queue alone. -/
theorem acceptBeat_agree (respond : Codec → Codec × List DecOutBeat) {s s' : State} (hcodec : s.codec = s'.codec)
    (hoq : s.oq = s'.oq) :
    (acceptBeat respond s).codec = (acceptBeat respond s').codec
      ∧ (acceptBeat respond s).oq = (acceptBeat respond s').oq := by
  by_cases h : s.oq = []
  · rw [acceptBeat_ready h, acceptBeat_ready (hoq ▸ h), hcodec]
    exact ⟨rfl, rfl⟩
  · rw [acceptBeat_busy h, acceptBeat_busy (hoq ▸ h)]
    exact ⟨hcodec, hoq⟩

/-- Settles O33: the operation offers a beat, and a decoder that is not ready does not accept it. -/
theorem notReadyChangesNothing : Obligations.NotReadyChangesNothing := by
  intro i s hi hbusy
  obtain ⟨respond, hexec⟩ := exec_decoder_response hi
  rw [hexec, acceptBeat_busy hbusy]

/-- Settles O45: under the same `opt[0]` the two runs offer beats with one response, and its acceptance depends on the
decoder's state alone. -/
theorem decoderReadsOnlyItsState : Obligations.DecoderReadsOnlyItsState := by
  intro i s s' t t' hi hcodec hoq hbit ht ht'
  obtain ⟨respond, hexec⟩ := exec_decoder_response hi
  have hskip : skipOf s.opt = skipOf s'.opt := hbit
  obtain rfl := Host.Outcome.next.inj ((hexec s).symm.trans ht)
  obtain rfl := Host.Outcome.next.inj ((hexec s').symm.trans ht')
  rw [hskip]
  exact acceptBeat_agree (respond (skipOf s'.opt)) hcodec hoq

/-- Settles O44: an operation is one transfer of the encoder, one answer of the table or one acceptance by the decoder,
as its format says, and each of the three writes fields of its own block alone. -/
theorem blocksAreIndependent : Obligations.BlocksAreIndependent := by
  intro i s t he
  have decoder (hi : i.format = .decIn ∨ i.format = .decLane) :
      ∃ respond, t = acceptBeat respond s := by
    obtain ⟨respond, hexec⟩ := exec_decoder_response hi
    exact ⟨_, Host.Outcome.next.inj (he.symm.trans (hexec s))⟩
  cases hi : i.format with
  | encIn =>
    obtain ⟨b, hexec⟩ := exec_encoder hi s
    obtain rfl := Host.Outcome.next.inj (hexec.symm.trans he)
    simp
  | sextet =>
    obtain ⟨v, -, hexec⟩ := exec_lut hi s
    obtain rfl := Host.Outcome.next.inj (hexec.symm.trans he)
    simp
  | decIn =>
    obtain ⟨respond, rfl⟩ := decoder (.inl hi)
    simp
  | decLane =>
    obtain ⟨respond, rfl⟩ := decoder (.inr hi)
    simp

/-! ### The word on the decoder's input port -/

/-- The operation of a `DEC_IN` word is the one its `last` selects, with the word's own lanes (R56, R62). -/
theorem decode_decInWord (last : Bool) (l0 l1 l2 l3 : Lane) :
    decode (decInWord last l0 l1 l2 l3) = .ok (if last then .decEnd l0 l1 l2 l3 else .decb l0 l1 l2 l3) := by
  have hdecode : decode (decInWord last l0 l1 l2 l3) = .ok (decodeDecIn (decInWord last l0 l1 l2 l3).bits) :=
    decode_fits (f := .decIn) rfl (Laws.EncodesInFormat.decIn_fits last l0 l1 l2 l3)
  rw [hdecode]
  obtain ⟨k0, u0⟩ := l0
  obtain ⟨k1, u1⟩ := l1
  obtain ⟨k2, u2⟩ := l2
  obtain ⟨k3, u3⟩ := l3
  have hk0 := Bool.toNat_lt k0
  have hk1 := Bool.toNat_lt k1
  have hk2 := Bool.toNat_lt k2
  have hk3 := Bool.toNat_lt k3
  have hu0 := u0.isLt
  have hu1 := u1.isLt
  have hu2 := u2.isLt
  have hu3 := u3.isLt
  generalize hn : (decInWord last _ _ _ _).bits = n
  simp only [decInWord] at hn
  have units_lt : 2 ^ 24 * u0.toNat + 2 ^ 16 * u1.toNat + 2 ^ 8 * u2.toNat + u3.toNat < 2 ^ 32 := by omega
  generalize hunits : 2 ^ 24 * u0.toNat + 2 ^ 16 * u1.toNat + 2 ^ 8 * u2.toNat + u3.toNat = units at units_lt
  have hlast : bitAt n 36 = last :=
    bitAt_field (hi := 0)
      (low := 2 ^ 35 * k0.toNat + 2 ^ 34 * k1.toNat + 2 ^ 33 * k2.toNat + 2 ^ 32 * k3.toNat + units) last
      (by omega) (by omega)
  have hkeep0 : bitAt n 35 = k0 :=
    bitAt_field (hi := last.toNat) (low := 2 ^ 34 * k1.toNat + 2 ^ 33 * k2.toNat + 2 ^ 32 * k3.toNat + units) k0
      (by omega) (by omega)
  have hkeep1 : bitAt n 34 = k1 :=
    bitAt_field (hi := 2 * last.toNat + k0.toNat) (low := 2 ^ 33 * k2.toNat + 2 ^ 32 * k3.toNat + units) k1
      (by omega) (by omega)
  have hkeep2 : bitAt n 33 = k2 :=
    bitAt_field (hi := 2 ^ 2 * last.toNat + 2 * k0.toNat + k1.toNat) (low := 2 ^ 32 * k3.toNat + units) k2
      (by omega) (by omega)
  have hkeep3 : bitAt n 32 = k3 :=
    bitAt_field (hi := 2 ^ 3 * last.toNat + 2 ^ 2 * k0.toNat + 2 * k1.toNat + k2.toNat) (low := units) k3
      (by omega) (by omega)
  generalize hflags : 2 ^ 4 * last.toNat + 2 ^ 3 * k0.toNat + 2 ^ 2 * k1.toNat + 2 * k2.toNat + k3.toNat = flags
  have hunit0 : slice n 24 8 = u0 :=
    slice_field (hi := flags) (low := 2 ^ 16 * u1.toNat + 2 ^ 8 * u2.toNat + u3.toNat) u0 (by omega) (by omega)
  have hunit1 : slice n 16 8 = u1 :=
    slice_field (hi := 2 ^ 8 * flags + u0.toNat) (low := 2 ^ 8 * u2.toNat + u3.toNat) u1 (by omega) (by omega)
  have hunit2 : slice n 8 8 = u2 :=
    slice_field (hi := 2 ^ 16 * flags + 2 ^ 8 * u0.toNat + u1.toNat) (low := u3.toNat) u2 (by omega) (by omega)
  have hunit3 : slice n 0 8 = u3 :=
    slice_field (hi := 2 ^ 24 * flags + 2 ^ 16 * u0.toNat + 2 ^ 8 * u1.toNat + u2.toNat) (low := 0) u3
      (by omega) (by omega)
  simp only [decodeDecIn, hlast, hkeep0, hkeep1, hkeep2, hkeep3, hunit0, hunit1, hunit2, hunit3]

/-- Offering a `DEC_IN` word offers the decoder the beat `DecBeat` of its fields (R108). -/
theorem perform_decInWord (last : Bool) (l0 l1 l2 l3 : Lane) (s : State) :
    perform (.present (decInWord last l0 l1 l2 l3)) s =
      .next (acceptBeat (decBeat (skipOf s.opt) last [l0, l1, l2, l3]) s) := by
  rw [perform_present (decode_decInWord last l0 l1 l2 l3)]
  cases last <;> rfl

/-- Four keep bits as a number, lane 0 the most significant (R36). -/
theorem toNat_keepBits : ∀ k : BitVec 4,
    8 * (k.getLsbD 3).toNat + 4 * (k.getLsbD 2).toNat + 2 * (k.getLsbD 1).toNat + (k.getLsbD 0).toNat = k.toNat := by
  decide

/-- The word on the input port is `{in_last, in_keep, in_units}` (R25, R56). -/
theorem beatWord_eq (p : DecPortsIn) :
    p.beatWord =
      { nbits := 40, bits := 2 ^ 36 * p.inLast.toNat + 2 ^ 32 * p.inKeep.toNat + p.inUnits.toNat } := by
  have hkeep := toNat_keepBits p.inKeep
  have hunits := p.inUnits.isLt
  simp only [DecPortsIn.beatWord, decInWord, DecPortsIn.lane0, DecPortsIn.lane1, DecPortsIn.lane2, DecPortsIn.lane3,
    toNat_slice, BeatWord.mk.injEq, true_and]
  omega

/-! ### The decoder's output ports -/

theorem decPorts_inReady_iff (s : State) : (decPorts s).inReady = true ↔ s.oq = [] := by
  simp [decPorts, inReady]

theorem decPorts_outValid_iff (s : State) : (decPorts s).outValid = true ↔ s.oq ≠ [] := by
  simp [decPorts, outValid]

/-- While a beat is shown the decoder is not ready, so no edge both delivers and accepts (R32). -/
theorem inReady_of_outValid {s : State} (h : outValid s = true) : inReady s = false := by
  simpa [outValid, inReady] using h

/-- The three bytes on `out_bytes` as a number, lane 0 in the most significant bits (R36). -/
theorem toNat_outBytes (y0 y1 y2 : Byte) :
    (y0 ++ y1 ++ y2).toNat = 2 ^ 16 * y0.toNat + 2 ^ 8 * y1.toNat + y2.toNat := by
  have hconcat := toNat_concat24 y0 y1 y2
  rw [concat24] at hconcat
  omega

/-! ### One clock edge -/

/-- With `rst = 1` the edge is a reset, whatever else the ports hold (R170). -/
theorem clockEdge_reset {p : DecPortsIn} (s : State) (hrst : p.rst = true) :
    clockEdge p s = resetDecoder (setOpt p.opt s) := by
  simp [clockEdge, hrst]

/-- An edge at which a ready decoder is offered a beat accepts it (R32). -/
theorem clockEdge_accept {p : DecPortsIn} {s : State} (hrst : p.rst = false) (hvalid : p.inValid = true)
    (hready : (decPorts s).inReady = true) :
    clockEdge p s =
      acceptBeat (decBeat (skipOf p.opt) p.inLast [p.lane0, p.lane1, p.lane2, p.lane3]) (setOpt p.opt s) := by
  have hready' : inReady (setOpt p.opt s) = true := hready
  simp [clockEdge, hrst, hvalid, hready']

/-- An edge at which the consumer is ready for the shown beat delivers it (R32). -/
theorem clockEdge_deliver {p : DecPortsIn} {s : State} (hrst : p.rst = false) (hshown : (decPorts s).outValid = true)
    (htake : p.outReady = true) : clockEdge p s = deliver (setOpt p.opt s) := by
  have hshown' : outValid (setOpt p.opt s) = true := hshown
  have hbusy := inReady_of_outValid hshown'
  simp [clockEdge, hrst, htake, hshown', hbusy]

/-- An edge without a transfer holds the state under the options word presented (R163). -/
theorem clockEdge_hold {p : DecPortsIn} {s : State} (hrst : p.rst = false)
    (hin : p.inValid = false ∨ (decPorts s).inReady = false)
    (hout : p.outReady = false ∨ (decPorts s).outValid = false) : clockEdge p s = setOpt p.opt s := by
  have hin' : (p.inValid && inReady (setOpt p.opt s)) = false := Bool.and_eq_false_iff.2 hin
  have hout' : (p.outReady && outValid (setOpt p.opt s)) = false := Bool.and_eq_false_iff.2 hout
  simp [clockEdge, hrst, hin', hout']

/-- Settles O43: each edge is the action whose condition its ports meet, and the ports show the head of `oq`. -/
theorem clockEdgeIsOneTransaction : Obligations.ClockEdgeIsOneTransaction := by
  intro p s w
  have hword : p.beatWord = w := beatWord_eq p
  refine ⟨hword, fun hrst => ?reset, fun hrst hvalid hready => ?accept, fun hrst hshown htake => ?deliver,
    fun hrst hin hout => clockEdge_hold hrst hin hout, decPorts_inReady_iff s, decPorts_outValid_iff s,
    fun hshown => ?fields⟩
  case reset =>
    rw [clockEdge_reset s hrst]
    rfl
  case accept =>
    rw [clockEdge_accept hrst hvalid hready, ← hword]
    exact perform_decInWord p.inLast p.lane0 p.lane1 p.lane2 p.lane3 (setOpt p.opt s)
  case deliver =>
    rw [clockEdge_deliver hrst hshown htake]
    rfl
  case fields =>
    obtain ⟨b, bs, hoq⟩ := List.exists_cons_of_ne_nil ((decPorts_outValid_iff s).1 hshown)
    refine ⟨b, bs, _, hoq, by rw [decPorts, outBeat, hoq]; rfl, toNat_outBytes b.y0 b.y1 b.y2, rfl, rfl, rfl, rfl,
      fun hrst htake => ?_⟩
    rw [clockEdge_deliver hrst hshown htake]
    exact deliver_cons (s := setOpt p.opt s) hoq

end Sys2Proof.Machine

/-! ## The encoding: the alphabet, beat words and their operations, the lanes of a beat -/

namespace Sys2Proof.Machine

/-! ### The alphabet's two tables -/

/-- `DecClass` inverts `EncLUT` (R52 (d)). -/
@[simp] theorem decClass_encLut : ∀ v : Sextet, decClass (encLut v) = .sym v := by decide

@[simp] theorem decClass_padChar : decClass padChar = .pad := rfl

/-- Symbols with the same character have the same class, so the same value. -/
theorem encLut_injective {v w : Sextet} (h : encLut v = encLut w) : v = w := by
  have hclass : UnitClass.sym v = .sym w := by rw [← decClass_encLut v, h, decClass_encLut]
  exact UnitClass.sym.inj hclass

/-- The padding symbol is no symbol's character: its class is another (R52 (c)). -/
theorem encLut_ne_padChar (v : Sextet) : encLut v ≠ padChar := by
  intro h
  have hclass := decClass_encLut v
  rw [h, decClass_padChar] at hclass
  cases hclass

theorem encLut_lt_0x80 : ∀ v : Sextet, (encLut v).toNat < 0x80 := by decide

/-- A unit of class `SYM` is the character of some sextet. -/
theorem exists_encLut_of_isSym : ∀ u : Byte, isSym u = true → ∃ v, encLut v = u := by decide

/-- `EncLUT` inverts `DecClass` on the symbols (R52 (d)). -/
theorem encLut_of_decClass {u : Byte} {v : Sextet} (h : decClass u = .sym v) : encLut v = u := by
  obtain ⟨w, rfl⟩ := exists_encLut_of_isSym u (by simp [isSym, h])
  rw [decClass_encLut] at h
  rw [UnitClass.sym.inj h]

/-- The padding symbol is the only unit of class `PAD`. -/
theorem eq_padChar_of_decClass : ∀ {u : Byte}, decClass u = .pad → u = padChar := by decide

/-! ### The classes of the units -/

/-- Units `A` to `Z`. -/
theorem decClass_upper {u : Byte} (hlo : 0x41#8 ≤ u) (hhi : u ≤ 0x5A#8) :
    decClass u = .sym (BitVec.ofNat 6 (u.toNat - 0x41)) := by
  rw [decClass, if_pos ⟨hlo, hhi⟩]
  congr 1
  bv_omega

/-- Units `a` to `z`. -/
theorem decClass_lower {u : Byte} (hlo : 0x61#8 ≤ u) (hhi : u ≤ 0x7A#8) :
    decClass u = .sym (BitVec.ofNat 6 (u.toNat - 0x61 + 26)) := by
  have hupper : ¬(0x41#8 ≤ u ∧ u ≤ 0x5A#8) := by bv_omega
  rw [decClass, if_neg hupper, if_pos ⟨hlo, hhi⟩]
  congr 1
  bv_omega

/-- Units `0` to `9`. -/
theorem decClass_digit {u : Byte} (hlo : 0x30#8 ≤ u) (hhi : u ≤ 0x39#8) :
    decClass u = .sym (BitVec.ofNat 6 (u.toNat - 0x30 + 52)) := by
  have hupper : ¬(0x41#8 ≤ u ∧ u ≤ 0x5A#8) := by bv_omega
  have hlower : ¬(0x61#8 ≤ u ∧ u ≤ 0x7A#8) := by bv_omega
  rw [decClass, if_neg hupper, if_neg hlower, if_pos ⟨hlo, hhi⟩]
  congr 1
  bv_omega

/-- The units between and around the rows of symbols and `=`. -/
theorem decClass_gap {u : Byte}
    (h : u ≤ 0x2A#8 ∨ (0x2C#8 ≤ u ∧ u ≤ 0x2E#8) ∨ (0x3A#8 ≤ u ∧ u ≤ 0x3C#8) ∨ (0x3E#8 ≤ u ∧ u ≤ 0x40#8)
      ∨ (0x5B#8 ≤ u ∧ u ≤ 0x60#8) ∨ 0x7B#8 ≤ u) : decClass u = .inv := by
  have hupper : ¬(0x41#8 ≤ u ∧ u ≤ 0x5A#8) := by bv_omega
  have hlower : ¬(0x61#8 ≤ u ∧ u ≤ 0x7A#8) := by bv_omega
  have hdigit : ¬(0x30#8 ≤ u ∧ u ≤ 0x39#8) := by bv_omega
  have hplus : u ≠ 0x2B#8 := by bv_omega
  have hslash : u ≠ 0x2F#8 := by bv_omega
  have hpad : u ≠ 0x3D#8 := by bv_omega
  rw [decClass, if_neg hupper, if_neg hlower, if_neg hdigit, if_neg hplus, if_neg hslash, if_neg hpad]

/-- All units but the 64 symbols and `=` are of class `INV`. -/
theorem length_filter_isInv : ((List.range 256).filter (fun n => isInv (BitVec.ofNat 8 n))).length = 191 := by
  have hsplit := List.length_eq_length_filter_add (l := List.range 256) (fun n => isInv (BitVec.ofNat 8 n))
  have hvalid : ((List.range 256).filter (fun n => !isInv (BitVec.ofNat 8 n))).length = 65 := by decide
  rw [hvalid, List.length_range] at hsplit
  omega

/-! ### Fields of a word as numbers -/

theorem toNat_wordSlice (n lo w : Nat) : (slice n lo w).toNat = n / 2 ^ lo % 2 ^ w := by
  rw [slice, BitVec.toNat_ofNat]

theorem toNat_bitAt (n i : Nat) : (bitAt n i).toNat = n / 2 ^ i % 2 := by
  rcases Nat.mod_two_eq_zero_or_one (n / 2 ^ i) with h | h <;> simp [bitAt, h]

/-! ### The operation of a lane -/

/-- The operation that a lane's nine bits select, by the keep bit and the class of the unit (R57, R62). -/
def laneInstr (l : Lane) : Instr :=
  if l.keep then
    match decClass l.unit with
    | .sym v => .decSym v
    | .pad => .decPad
    | .inv => .decInv l.unit
  else .decNop l.unit

@[simp] theorem laneInstr_empty (u : Byte) : laneInstr { keep := false, unit := u } = .decNop u := rfl

theorem laneInstr_sym {u : Byte} {v : Sextet} (h : decClass u = .sym v) :
    laneInstr { keep := true, unit := u } = .decSym v := by
  simp [laneInstr, h]

theorem laneInstr_pad {u : Byte} (h : decClass u = .pad) : laneInstr { keep := true, unit := u } = .decPad := by
  simp [laneInstr, h]

theorem laneInstr_inv {u : Byte} (h : decClass u = .inv) : laneInstr { keep := true, unit := u } = .decInv u := by
  simp [laneInstr, h]

theorem decodeDecLane_eq (n : Nat) : decodeDecLane n = laneInstr { keep := bitAt n 8, unit := slice n 0 8 } := rfl

/-- A `DEC_LANE` word decodes to the operation of its lane. -/
theorem decode_laneWord (l : Lane) : decode (laneWord l.keep l.unit) = .ok (laneInstr l) := by
  have hdecode : decode (laneWord l.keep l.unit) = .ok (decodeDecLane (laneWord l.keep l.unit).bits) :=
    decode_fits (f := .decLane) rfl (Laws.EncodesInFormat.lane_fits l.keep l.unit)
  have hunit := l.unit.isLt
  have hkeep : bitAt (laneWord l.keep l.unit).bits 8 = l.keep :=
    bitAt_field (hi := 0) (low := l.unit.toNat) l.keep (by simp only [laneWord]; omega) hunit
  have hslice : slice (laneWord l.keep l.unit).bits 0 8 = l.unit :=
    slice_field (hi := l.keep.toNat) (low := 0) l.unit (by simp only [laneWord]; omega) (by decide)
  rw [hdecode, decodeDecLane_eq, hkeep, hslice]

/-- The operation of a lane is written as the lane: its class tells the unit of a symbol and of padding. -/
theorem encode_laneInstr (l : Lane) : encode (laneInstr l) = laneWord l.keep l.unit := by
  obtain ⟨keep, u⟩ := l
  cases keep with
  | false => rfl
  | true =>
    cases hclass : decClass u with
    | sym v => rw [laneInstr_sym hclass, encode, encLut_of_decClass hclass]
    | pad => rw [laneInstr_pad hclass, encode, eq_padChar_of_decClass hclass]
    | inv => rw [laneInstr_inv hclass, encode]

theorem decode_encode_laneInstr (l : Lane) : decode (encode (laneInstr l)) = .ok (laneInstr l) := by
  rw [encode_laneInstr, decode_laneWord]

/-! ### Decoding what was encoded -/

/-- A word of six bits decodes to the look-up of its sextet. -/
theorem decode_sextetWord (v : Sextet) : decode { nbits := 8, bits := v.toNat } = .ok (.encLut v) := by
  have hslice : slice v.toNat 0 6 = v := slice_field (hi := 0) (low := 0) v (by omega) (by decide)
  rw [decode_fits (f := .sextet) rfl v.isLt, decodeAs, hslice]

/-- Settles O3: each operation is written as a word of its format with its own operands as fields, and the word of a
format decodes to the operation that its fields select. -/
theorem decodeEncodeAgree : Obligations.DecodeEncodeAgree := by
  intro i hwf
  cases i with
  | enc0 last b0 b1 b2 => exact decode_encInWord last 0#2 b0 b1 b2
  | enc1 last b0 b1 b2 => exact decode_encInWord last 1#2 b0 b1 b2
  | enc2 last b0 b1 b2 => exact decode_encInWord last 2#2 b0 b1 b2
  | enc3 last b0 b1 b2 => exact decode_encInWord last 3#2 b0 b1 b2
  | decNop u => exact decode_encode_laneInstr { keep := false, unit := u }
  | decSym v =>
    rw [← laneInstr_sym (decClass_encLut v)]
    exact decode_encode_laneInstr _
  | decPad => exact decode_encode_laneInstr { keep := true, unit := padChar }
  | decInv u =>
    have hclass : decClass u = .inv := by simpa [Instr.wellFormed] using hwf
    rw [← laneInstr_inv hclass]
    exact decode_encode_laneInstr _
  | decb l0 l1 l2 l3 => exact decode_decInWord false l0 l1 l2 l3
  | decEnd l0 l1 l2 l3 => exact decode_decInWord true l0 l1 l2 l3
  | encLut v => exact decode_sextetWord v

/-! ### Encoding what was decoded -/

theorem count_cases : ∀ count : BitVec 2, count = 3#2 ∨ count = 2#2 ∨ count = 1#2 ∨ count = 0#2 := by decide

/-- The operation that `count` selects is written with that `count`. -/
theorem encode_decodeEncIn (n : Nat) :
    encode (decodeEncIn n) = encInWord (bitAt n 26) (slice n 24 2) (slice n 16 8) (slice n 8 8) (slice n 0 8) := by
  rcases count_cases (slice n 24 2) with h | h | h | h <;> simp [decodeEncIn, h, encode]

/-- The operation that `last` selects is written with that `last`. -/
theorem encode_decodeDecIn (n : Nat) :
    encode (decodeDecIn n) = decInWord (bitAt n 36) { keep := bitAt n 35, unit := slice n 24 8 }
      { keep := bitAt n 34, unit := slice n 16 8 } { keep := bitAt n 33, unit := slice n 8 8 }
      { keep := bitAt n 32, unit := slice n 0 8 } := by
  cases h : bitAt n 36 <;> simp [decodeDecIn, h, encode]

/-- The fields of `ENC_IN` are all its bits. -/
theorem encInWord_fields {n : Nat} (hn : n < 2 ^ 27) :
    encInWord (bitAt n 26) (slice n 24 2) (slice n 16 8) (slice n 8 8) (slice n 0 8) = { nbits := 32, bits := n } := by
  simp only [encInWord, toNat_bitAt, toNat_wordSlice, BeatWord.mk.injEq, true_and]
  omega

/-- The fields of `DEC_IN` are all its bits: the five flags are what stands above bit 31, the four units what stands
below bit 32. -/
theorem decInWord_fields {n : Nat} (hn : n < 2 ^ 37) :
    decInWord (bitAt n 36) { keep := bitAt n 35, unit := slice n 24 8 } { keep := bitAt n 34, unit := slice n 16 8 }
      { keep := bitAt n 33, unit := slice n 8 8 } { keep := bitAt n 32, unit := slice n 0 8 } =
      { nbits := 40, bits := n } := by
  have hflags : 2 ^ 36 * (n / 2 ^ 36 % 2) + 2 ^ 35 * (n / 2 ^ 35 % 2) + 2 ^ 34 * (n / 2 ^ 34 % 2)
      + 2 ^ 33 * (n / 2 ^ 33 % 2) + 2 ^ 32 * (n / 2 ^ 32 % 2) = 2 ^ 32 * (n / 2 ^ 32) := by omega
  have hunits : 2 ^ 24 * (n / 2 ^ 24 % 2 ^ 8) + 2 ^ 16 * (n / 2 ^ 16 % 2 ^ 8) + 2 ^ 8 * (n / 2 ^ 8 % 2 ^ 8)
      + n / 2 ^ 0 % 2 ^ 8 = n % 2 ^ 32 := by omega
  have hsplit : 2 ^ 32 * (n / 2 ^ 32) + n % 2 ^ 32 = n := Nat.div_add_mod n (2 ^ 32)
  simp only [decInWord, toNat_bitAt, toNat_wordSlice, BeatWord.mk.injEq, true_and]
  linarith only [hflags, hunits, hsplit]

/-- The fields of `DEC_LANE` are all its bits. -/
theorem laneWord_fields {n : Nat} (hn : n < 2 ^ 9) :
    laneWord (bitAt n 8) (slice n 0 8) = { nbits := 16, bits := n } := by
  simp only [laneWord, toNat_bitAt, toNat_wordSlice, BeatWord.mk.injEq, true_and]
  omega

/-- The operation of a word that fits its format is written as that word. -/
theorem encode_decodeAs {f : Format} {n : Nat} (hn : n < 2 ^ f.width) :
    encode (decodeAs f n) = { nbits := f.tableBits, bits := n } := by
  cases f with
  | encIn => exact (encode_decodeEncIn n).trans (encInWord_fields hn)
  | decIn => exact (encode_decodeDecIn n).trans (decInWord_fields hn)
  | decLane =>
    rw [decodeAs, decodeDecLane_eq, encode_laneInstr]
    exact laneWord_fields hn
  | sextet =>
    have hbits : (slice n 0 6).toNat = n := by
      rw [toNat_wordSlice, pow_zero, Nat.div_one]
      exact Nat.mod_eq_of_lt hn
    rw [decodeAs, encode, hbits]
    rfl

theorem laneInstr_format (l : Lane) : (laneInstr l).format = .decLane := by
  obtain ⟨keep, u⟩ := l
  cases keep with
  | false => rfl
  | true =>
    cases hclass : decClass u with
    | sym v => rw [laneInstr_sym hclass, Instr.format]
    | pad => rw [laneInstr_pad hclass, Instr.format]
    | inv => rw [laneInstr_inv hclass, Instr.format]

/-- A format's words decode to operations of that format. -/
theorem decodeAs_format (f : Format) (n : Nat) : (decodeAs f n).format = f := by
  cases f with
  | encIn =>
    rw [decodeAs, decodeEncIn]
    split_ifs <;> rfl
  | decIn =>
    rw [decodeAs, decodeDecIn]
    split_ifs <;> rfl
  | decLane => rw [decodeAs, decodeDecLane_eq, laneInstr_format]
  | sextet => rfl

/-- Settles O4: a word that decodes fits its format, whose fields are all the word's bits. -/
theorem encodeDecodeAgree : Obligations.EncodeDecodeAgree := by
  intro w i hd
  obtain ⟨f, hformat, hfits, rfl⟩ := decode_ok hd
  exact ⟨decode_wellFormed hd, by rw [encode_decodeAs hfits], by rw [decodeAs_format, hformat]⟩

/-- Settles O5: each word evaluates. -/
theorem specWordsDecode : Obligations.SpecWordsDecode := by
  unfold Obligations.SpecWordsDecode
  decide

/-! ### A beat of four lanes -/

theorem decLane_sym {skip : Bool} {u : Byte} {v : Sextet} (h : decClass u = .sym v) :
    decLane skip { keep := true, unit := u } = laneSym v := by
  funext c
  simp [decLane, h]

theorem decLane_pad {skip : Bool} {u : Byte} (h : decClass u = .pad) :
    decLane skip { keep := true, unit := u } = lanePad := by
  funext c
  simp [decLane, h]

theorem decLane_inv {skip : Bool} {u : Byte} (h : decClass u = .inv) :
    decLane skip { keep := true, unit := u } = laneInv skip := by
  funext c
  simp [decLane, h]

/-- The operation of a lane offers the decoder that lane as a beat of its own (log 4). -/
theorem exec_laneInstr (l : Lane) (s : State) :
    exec (laneInstr l) s = .next (acceptBeat (oneLane (decLane (skipOf s.opt) l)) s) := by
  obtain ⟨keep, u⟩ := l
  cases keep with
  | false => rfl
  | true =>
    cases hclass : decClass u with
    | sym v =>
      rw [laneInstr_sym hclass, decLane_sym hclass]
      rfl
    | pad =>
      rw [laneInstr_pad hclass, decLane_pad hclass]
      rfl
    | inv =>
      rw [laneInstr_inv hclass, decLane_inv hclass]
      rfl

/-- A ready decoder after a beat that holds the lane and nothing else: the lane's codec state, and the data beat of the
group it completes, if any. -/
def afterLane (l : Lane) (s : State) : State :=
  { s with codec := (decLane (skipOf s.opt) l s.codec).1, oq := beatsOf (decLane (skipOf s.opt) l s.codec).2 }

theorem exec_laneInstr_ready (l : Lane) {s : State} (h : s.oq = []) :
    exec (laneInstr l) s = .next (afterLane l s) := by
  rw [exec_laneInstr, acceptBeat_ready h]
  rfl

/-- A DECB on a ready decoder folds `DecLane` over its lanes (R108). -/
theorem exec_decb_ready (l0 l1 l2 l3 : Lane) {s : State} (h : s.oq = []) :
    exec (.decb l0 l1 l2 l3) s = .next { s with
      codec := (decLanes (skipOf s.opt) [l0, l1, l2, l3] s.codec).1
      oq := (decLanes (skipOf s.opt) [l0, l1, l2, l3] s.codec).2 } := by
  rw [exec, execDecb, acceptBeat_ready h, decBeat_notLast]

/-- Settles O31: each lane's operation, on a ready decoder, is one step of the fold that the DECB is. -/
theorem decbIsItsFourLanes : Obligations.DecbIsItsFourLanes := by
  intro l0 l1 l2 l3 s hoq
  refine ⟨laneInstr l0, laneInstr l1, laneInstr l2, laneInstr l3, afterLane l0 s,
    afterLane l1 { afterLane l0 s with oq := [] },
    afterLane l2 { afterLane l1 { afterLane l0 s with oq := [] } with oq := [] },
    afterLane l3 { afterLane l2 { afterLane l1 { afterLane l0 s with oq := [] } with oq := [] } with oq := [] },
    decode_laneWord l0, decode_laneWord l1, decode_laneWord l2, decode_laneWord l3, exec_laneInstr_ready l0 hoq,
    exec_laneInstr_ready l1 rfl, exec_laneInstr_ready l2 rfl, exec_laneInstr_ready l3 rfl, ?_⟩
  rw [exec_decb_ready l0 l1 l2 l3 hoq]
  simp only [afterLane, decLanes_cons, decLanes_nil, List.append_nil, List.append_assoc]

/-! ### Every pattern has a result -/

/-- No operation faults or is refused, whatever the state (R145). -/
theorem exec_completes (i : Instr) (s : State) : ∃ t, exec i s = .next t := by
  have decoder (hi : i.format = .decIn ∨ i.format = .decLane) : ∃ t, exec i s = .next t := by
    obtain ⟨respond, hexec⟩ := exec_decoder_response hi
    exact ⟨_, hexec s⟩
  cases hi : i.format with
  | encIn =>
    obtain ⟨b, hexec⟩ := exec_encoder hi s
    exact ⟨_, hexec⟩
  | sextet =>
    obtain ⟨v, -, hexec⟩ := exec_lut hi s
    exact ⟨_, hexec⟩
  | decIn => exact decoder (.inl hi)
  | decLane => exact decoder (.inr hi)

/-- Settles O6: a word that fits its format decodes, and every operation completes. -/
theorem everyPatternHasAResult : Obligations.EveryPatternHasAResult := by
  refine ⟨exec_completes, fun f n s hn => ?_⟩
  rw [perform_present (decode_fits (ofBits_tableBits f) hn)]
  exact exec_completes (decodeAs f n) s

/-! ### The statements about the tables -/

/-- Settles O7: the table has 64 entries, each of which evaluates. -/
theorem alphabetIsTheListing : Obligations.AlphabetIsTheListing := by
  unfold Obligations.AlphabetIsTheListing
  decide

/-- Settles O8: a lemma per row of the table; the counts evaluate the class of each of the 256 units. -/
theorem unitClasses : Obligations.UnitClasses := by
  refine ⟨fun u => ⟨?plus, ?slash, decClass_digit, ?pad, decClass_upper, decClass_lower, decClass_gap⟩,
    by decide, by decide, length_filter_isInv⟩
  case plus => rintro rfl; rfl
  case slash => rintro rfl; rfl
  case pad => rintro rfl; rfl

/-- Settles O9: the two tables are inverse to each other, and the padding symbol has a class of its own. -/
theorem alphabetInvariants : Obligations.AlphabetInvariants :=
  ⟨rfl, fun _ _ => encLut_injective, encLut_ne_padChar, decClass_encLut, fun _ _ => encLut_of_decClass,
    encLut_lt_0x80, by decide, rfl, rfl⟩

end Sys2Proof.Machine

/-! ## The encoder: its operations, sequences of beats, the text of a message -/

namespace Sys2Proof.Machine

/-! ### The regrouper's slices -/

/-- The four sextets, most significant bits first, each cut from at most two neighbouring bytes (R80). -/
theorem regroup24_eq (b0 b1 b2 : Byte) :
    regroup24 b0 b1 b2 =
      { s0 := b0.extractLsb' 2 6
        s1 := b0.extractLsb' 0 2 ++ b1.extractLsb' 4 4
        s2 := b1.extractLsb' 0 4 ++ b2.extractLsb' 6 2
        s3 := b2.extractLsb' 0 6 } := by
  have hb0 := b0.isLt
  have hb1 := b1.isLt
  have hb2 := b2.isLt
  obtain ⟨hs0, hs1, hs2, hs3⟩ := toNat_regroup24 b0 b1 b2
  rw [Sextets.mk.injEq]
  refine ⟨?_, ?_, ?_, ?_⟩ <;> apply BitVec.eq_of_toNat_eq <;>
    simp only [hs0, hs1, hs2, hs3, toNat_concat, toNat_slice] <;> omega

/-- Joined again, the four sextets are the three bytes (R80). -/
theorem concatSextets_regroup24 (b0 b1 b2 : Byte) :
    concatSextets (regroup24 b0 b1 b2).s0 (regroup24 b0 b1 b2).s1 (regroup24 b0 b1 b2).s2 (regroup24 b0 b1 b2).s3 =
      concat24 b0 b1 b2 := by
  obtain ⟨hs0, hs1, hs2, hs3⟩ := toNat_regroup24 b0 b1 b2
  apply BitVec.eq_of_toNat_eq
  rw [toNat_concatSextets, toNat_concat24, hs0, hs1, hs2, hs3]
  omega

/-- Settles O11: the slices and the joined value as numbers. -/
theorem regroupSlices : Obligations.RegroupSlices := by
  intro b0 b1 b2
  have hjoin := concatSextets_regroup24 b0 b1 b2
  rw [regroup24_eq] at hjoin ⊢
  exact ⟨rfl, rfl, rfl, rfl, hjoin⟩

/-! ### The table and the four operations -/

/-- The code of a symbol, row by row of the rule (R81). -/
theorem toNat_encLut (v : Sextet) :
    (encLut v).toNat =
      if v.toNat ≤ 25 then 0x41 + v.toNat
      else if v.toNat ≤ 51 then 0x61 + (v.toNat - 26)
      else if v.toNat ≤ 61 then 0x30 + (v.toNat - 52)
      else if v.toNat = 62 then 0x2B else 0x2F := by
  rw [encLut]
  split_ifs <;> bv_omega

/-- Settles O10: the look-up answers the table's character, whose code is the rule's. -/
theorem encLutResult : Obligations.EncLutResult :=
  fun v _ => ⟨encLut v, rfl, toNat_encLut v⟩

/-- Settles O12: the transferred beat holds the symbols of the regrouper's four slices. -/
theorem enc3Result : Obligations.Enc3Result := by
  intro last b0 b1 b2 s
  rw [exec, execEnc3, enc3Out, regroup24_eq]
  rfl

/-- Settles O13: with lane 2 taken as zero, the third slice ends in two zero bits. -/
theorem enc2Result : Obligations.Enc2Result := by
  intro last b0 b1 b2 s
  rw [exec, execEnc2, enc2Out, regroup24_eq]
  rfl

/-- Settles O14: with lanes 1 and 2 taken as zero, the second slice ends in four zero bits. -/
theorem enc1Result : Obligations.Enc1Result := by
  intro last b0 b1 b2 s
  rw [exec, execEnc1, enc1Out, regroup24_eq]
  rfl

/-- Settles O15: the empty beat is written out in the model, and its word evaluates. -/
theorem enc0Result : Obligations.Enc0Result := ⟨fun _ _ _ _ _ => rfl, rfl⟩

/-! ### Beats, one by one -/

/-- `last` is copied, whatever `count` selects (R86). -/
theorem encBeat_last (last : Bool) (count : BitVec 2) (b0 b1 b2 : Byte) :
    (encBeat last count b0 b1 b2).last = last := by
  rw [encBeat]
  split_ifs <;> rfl

/-- Offering an encoder beat hands its output beat to the consumer and changes nothing else (R86). -/
theorem perform_encIn (b : EncIn) (s : State) :
    perform (.present b.word) s = .next { s with encRecv := s.encRecv ++ [b.out] } :=
  perform_encInWord b.last b.count b.b0 b.b1 b.b2 s

/-- Settles O16: the beat handed over is `EncBeat` of the input's fields, which `count` alone selects. -/
theorem encoderOneBeatPerBeat : Obligations.EncoderOneBeatPerBeat := by
  rintro ⟨last, count, b0, b1, b2⟩ s
  refine ⟨_, perform_encIn _ s, encBeat_last last count b0 b1 b2, ?_, ?_, ?_, ?_⟩ <;> rintro rfl <;> rfl

/-- A run that offers encoder beats hands over their output beats in order, framed or not (R93). -/
theorem run_sendEnc (bs : List EncIn) (rest : List HostAction) (s : State) (h : s.schedule = sendEnc bs ++ rest) :
    core.run bs.length s = .next { s with schedule := rest, encRecv := s.encRecv ++ bs.map EncIn.out } := by
  induction bs generalizing s with
  | nil =>
    have hrest : s.schedule = rest := h
    rw [List.length_nil, core_run_zero, ← hrest, List.map_nil, List.append_nil]
  | cons b bs ih =>
    have hfirst := (step_cons (rest := sendEnc bs ++ rest) h).trans (perform_encIn b _)
    rw [List.length_cons, core_run_next hfirst, ih _ rfl, List.map_cons, List.append_assoc, List.singleton_append]

/-- Settles O17: each beat of the run is encoded on its own; the rule's example evaluates. -/
theorem encoderAnyBeatSequence : Obligations.EncoderAnyBeatSequence :=
  ⟨run_sendEnc, by decide, by decide, by decide⟩

/-! ### The characters of the text -/

@[simp] theorem isSym_encLut (v : Sextet) : isSym (encLut v) = true := by
  simp [isSym]

/-- A full group at the front of a message is encoded on its own, and its characters do not depend on `last` (R87). -/
theorem encodeText_full (last : Bool) (b0 b1 b2 : Byte) (bs : List Byte) :
    encodeText (b0 :: b1 :: b2 :: bs) = (enc3Out last b0 b1 b2).chars ++ encodeText bs := rfl

/-- A partial group of one byte is two symbols and two padding symbols (R84). -/
theorem encodeText_one (b0 : Byte) :
    encodeText [b0] =
      [encLut (regroup24 b0 0#8 0#8).s0, encLut (regroup24 b0 0#8 0#8).s1] ++ List.replicate 2 padChar := rfl

/-- A partial group of two bytes is three symbols and one padding symbol (R83). -/
theorem encodeText_two (b0 b1 : Byte) :
    encodeText [b0, b1] =
      [encLut (regroup24 b0 b1 0#8).s0, encLut (regroup24 b0 b1 0#8).s1, encLut (regroup24 b0 b1 0#8).s2]
        ++ List.replicate 1 padChar := rfl

/-- Every group, full or partial, gives four characters. -/
theorem length_encodeText (bs : List Byte) : (encodeText bs).length = (bs.length + 2) / 3 * 4 := by
  induction bs using encodeText.induct with
  | case1 => rfl
  | case2 b0 => simp [encodeText_one]
  | case3 b0 b1 => simp [encodeText_two]
  | case4 b0 b1 b2 bs ih =>
    have hgroup : (enc3Out false b0 b1 b2).chars.length = 4 := rfl
    rw [encodeText_full false, List.length_append, hgroup, ih]
    simp only [List.length_cons]
    omega

/-- Settles O19: the length is four times the number of groups. -/
theorem encodeLength : Obligations.EncodeLength := by
  intro bs
  have hlength := length_encodeText bs
  exact ⟨hlength, by omega, by omega⟩

/-- Settles O20: full groups put four symbols in front and leave the length modulo 3 alone; the partial group at the
end, if any, holds the padding. -/
theorem encodePadding : Obligations.EncodePadding := by
  intro bs
  induction bs using encodeText.induct with
  | case1 => exact ⟨[], by simp, rfl⟩
  | case2 b0 => exact ⟨_, by simp, encodeText_one b0⟩
  | case3 b0 b1 => exact ⟨_, by simp, encodeText_two b0 b1⟩
  | case4 b0 b1 b2 bs ih =>
    obtain ⟨syms, hsyms, htext⟩ := ih
    have hgroup : ∀ c ∈ (enc3Out false b0 b1 b2).chars, isSym c = true := by
      simp [EncOutBeat.chars, enc3Out]
    refine ⟨(enc3Out false b0 b1 b2).chars ++ syms, List.forall_mem_append.2 ⟨hgroup, hsyms⟩, ?_⟩
    rw [encodeText_full false, htext, List.append_assoc]
    simp only [List.length_cons, Nat.add_assoc, Nat.reduceAdd, Nat.add_mod_right]

/-- A character of the text alphabet is a symbol or the padding symbol: only class `INV` is shut out. -/
theorem isSym_or_eq_padChar {c : Byte} (h : isText c = true) : isSym c = true ∨ c = padChar := by
  cases hclass : decClass c with
  | sym v => exact .inl (by simp [isSym, hclass])
  | pad => exact .inr (eq_padChar_of_decClass hclass)
  | inv => simp [isText, isInv, hclass] at h

/-- The valid characters of a legal beat are text (R55, R92). -/
theorem EncOutBeat.isText_of_mem_chars {b : EncOutBeat} (h : b.legal = true) : ∀ c ∈ b.chars, isText c = true := by
  simp only [EncOutBeat.legal, Bool.or_eq_true, Bool.and_eq_true, beq_iff_eq] at h
  rcases h with ⟨⟨⟨⟨hnchars, h0⟩, h1⟩, h2⟩, h3⟩ | ⟨⟨⟨⟨hnchars, -⟩, -⟩, -⟩, -⟩
  · simp [EncOutBeat.chars, hnchars, h0, h1, h2, h3]
  · simp [EncOutBeat.chars, hnchars]

/-- Settles O21: every output beat is legal, and the text is symbols and padding. -/
theorem encodeAlphabet : Obligations.EncodeAlphabet := by
  refine ⟨fun b c hc => isSym_or_eq_padChar (EncOutBeat.isText_of_mem_chars (encOut_legal b) c hc), fun bs c hc => ?_⟩
  obtain ⟨syms, hsyms, htext⟩ := encodePadding bs
  rw [htext, List.mem_append] at hc
  exact hc.imp (hsyms c) List.eq_of_mem_replicate

/-! ### A framed message -/

/-- A framed sequence is full groups that are not last, and one beat that is (R38). -/
theorem encFramed_split {bs : List EncIn} (h : encFramed bs = true) :
    ∃ full final, bs = full ++ [final] ∧ (∀ b ∈ full, b.last = false ∧ b.count = 3#2) ∧ final.last = true := by
  induction bs using encFramed.induct with
  | case1 => cases h
  | case2 b => exact ⟨[], b, rfl, List.forall_mem_nil _, h⟩
  | case3 b bs hne ih =>
    simp only [encFramed, Bool.and_eq_true, Bool.not_eq_true', beq_iff_eq] at h
    obtain ⟨⟨hlast, hcount⟩, hframed⟩ := h
    obtain ⟨full, final, rfl, hfull, hfinal⟩ := ih hframed
    exact ⟨b :: full, final, rfl, List.forall_mem_cons.2 ⟨⟨hlast, hcount⟩, hfull⟩, hfinal⟩

/-- One beat encodes its own valid bytes, as a message of their own (R86, R87). -/
theorem EncIn.chars_out (b : EncIn) : b.out.chars = encodeText b.bytes := by
  obtain ⟨last, count, b0, b1, b2⟩ := b
  rcases count_cases count with rfl | rfl | rfl | rfl <;> rfl

/-- A full group in front of a message puts its own characters in front of the text. -/
theorem encodeText_bytes_append {b : EncIn} (h : b.count = 3#2) (bs : List Byte) :
    encodeText (b.bytes ++ bs) = b.out.chars ++ encodeText bs := by
  obtain ⟨last, count, b0, b1, b2⟩ := b
  obtain rfl := h
  exact encodeText_full last b0 b1 b2 bs

/-- Full groups in front of one more beat: the characters of the beats are the text of the bytes (R88). -/
theorem chars_eq_encodeText {full : List EncIn} (final : EncIn) (h : ∀ b ∈ full, b.count = 3#2) :
    ((full ++ [final]).map EncIn.out).flatMap EncOutBeat.chars = encodeText ((full ++ [final]).flatMap EncIn.bytes) := by
  induction full with
  | nil => simp [EncIn.chars_out]
  | cons b full ih =>
    obtain ⟨hcount, hfull⟩ := List.forall_mem_cons.1 h
    rw [List.cons_append, List.map_cons, List.flatMap_cons, ih hfull, List.flatMap_cons, encodeText_bytes_append hcount]

/-- Settles O22: the run hands over the beats' output beats; all beats but the final one are full groups, not last. -/
theorem encodeMessageBeats : Obligations.EncodeMessageBeats := by
  intro bs rest s hframed hs
  refine ⟨bs.map EncIn.out, run_sendEnc bs rest s hs, List.length_map _, ?_⟩
  obtain ⟨full, final, rfl, hfull, hfinal⟩ := encFramed_split hframed
  refine ⟨chars_eq_encodeText final fun b hb => (hfull b hb).2, ?_⟩
  have hlasts : full.map (fun b => b.out.last) = List.replicate full.length false :=
    List.map_eq_replicate_iff.2 fun b hb => (encBeat_last ..).trans (hfull b hb).1
  have hend : final.out.last = true := (encBeat_last ..).trans hfinal
  simp [Function.comp_def, hlasts, hend]

end Sys2Proof.Machine

/-! ## The decoder: its packer, the lane operations, whole messages, and the host that sends beats -/

namespace Sys2Proof.Machine

/-! ### The packer and the tails of a final group -/

/-- The three bytes, each cut from two neighbouring sextets (R101). -/
theorem pack24_eq (v0 v1 v2 v3 : Sextet) :
    pack24 v0 v1 v2 v3 =
      { y0 := v0 ++ v1.extractLsb' 4 2
        y1 := v1.extractLsb' 0 4 ++ v2.extractLsb' 2 4
        y2 := v2.extractLsb' 0 2 ++ v3 } := by
  have hv1 := v1.isLt
  have hv2 := v2.isLt
  obtain ⟨hy0, hy1, hy2⟩ := toNat_pack24 v0 v1 v2 v3
  rw [Group.mk.injEq]
  refine ⟨?_, ?_, ?_⟩ <;> apply BitVec.eq_of_toNat_eq <;>
    simp only [hy0, hy1, hy2, toNat_concat, toNat_slice] <;> omega

/-- The one byte of a tail of two sextets (R107). -/
theorem tail12_eq (v0 v1 : Sextet) : tail12 v0 v1 = v0 ++ v1.extractLsb' 4 2 := by
  have hv1 := v1.isLt
  apply BitVec.eq_of_toNat_eq
  rw [toNat_tail12, toNat_concat, toNat_slice]
  omega

/-- The first byte of a tail of three sextets (R107). -/
theorem tail18hi_eq (v0 v1 v2 : Sextet) : tail18hi v0 v1 v2 = v0 ++ v1.extractLsb' 4 2 := by
  apply BitVec.eq_of_toNat_eq
  rw [← tail12_eq, toNat_tail12, toNat_tail18hi]

/-- The second byte of a tail of three sextets (R107). -/
theorem tail18lo_eq (v0 v1 v2 : Sextet) : tail18lo v0 v1 v2 = v1.extractLsb' 0 4 ++ v2.extractLsb' 2 4 := by
  have hv2 := v2.isLt
  apply BitVec.eq_of_toNat_eq
  rw [toNat_tail18lo, toNat_concat, toNat_slice, toNat_slice]
  omega

/-- Packing undoes regrouping (R101). -/
theorem pack24_regroup24 (b0 b1 b2 : Byte) :
    pack24 (regroup24 b0 b1 b2).s0 (regroup24 b0 b1 b2).s1 (regroup24 b0 b1 b2).s2 (regroup24 b0 b1 b2).s3 =
      { y0 := b0, y1 := b1, y2 := b2 } := by
  obtain ⟨hs0, hs1, hs2, hs3⟩ := toNat_regroup24 b0 b1 b2
  rw [pack24, concatSextets_regroup24, Group.mk.injEq]
  have hb0 := b0.isLt
  have hb1 := b1.isLt
  have hb2 := b2.isLt
  refine ⟨?_, ?_, ?_⟩ <;> apply BitVec.eq_of_toNat_eq <;> rw [toNat_slice, toNat_concat24] <;> omega

/-- Regrouping undoes packing (R101). -/
theorem regroup24_pack24 (v0 v1 v2 v3 : Sextet) :
    regroup24 (pack24 v0 v1 v2 v3).y0 (pack24 v0 v1 v2 v3).y1 (pack24 v0 v1 v2 v3).y2 =
      { s0 := v0, s1 := v1, s2 := v2, s3 := v3 } := by
  have hv1 := v1.isLt
  have hv2 := v2.isLt
  have hv3 := v3.isLt
  obtain ⟨hy0, hy1, hy2⟩ := toNat_pack24 v0 v1 v2 v3
  obtain ⟨hs0, hs1, hs2, hs3⟩ :=
    toNat_regroup24 (pack24 v0 v1 v2 v3).y0 (pack24 v0 v1 v2 v3).y1 (pack24 v0 v1 v2 v3).y2
  rw [Sextets.mk.injEq]
  refine ⟨?_, ?_, ?_, ?_⟩ <;> apply BitVec.eq_of_toNat_eq <;>
    simp only [hs0, hs1, hs2, hs3, hy0, hy1, hy2] <;> omega

/-- Settles O24: the slices and the two inverse laws. -/
theorem packSlices : Obligations.PackSlices := by
  refine ⟨fun v0 v1 v2 v3 => ?_, pack24_regroup24⟩
  have hinv := regroup24_pack24 v0 v1 v2 v3
  rw [pack24_eq] at hinv ⊢
  exact ⟨rfl, rfl, rfl, hinv⟩

/-! ### The lane operations, case by case -/

theorem laneSym_failed (v : Sextet) {c : Codec} (hf : c.failed = true) : laneSym v c = (c, none) := by
  simp [laneSym, hf]

theorem laneSym_padSeen (v : Sextet) {c : Codec} (hf : c.failed = false) (hp : c.padSeen = true) :
    laneSym v c = (raiseInvalidInput c, none) := by
  simp [laneSym, hf, hp]

theorem laneSym_push (v : Sextet) {c : Codec} (hf : c.failed = false) (hp : c.padSeen = false)
    (hlen : c.pend.length < 3) : laneSym v c = ({ c with pend := c.pend ++ [v] }, none) := by
  rcases hq : c.pend with _ | ⟨v0, _ | ⟨v1, _ | ⟨v2, tl⟩⟩⟩
  · simp [laneSym, hf, hp, hq]
  · simp [laneSym, hf, hp, hq]
  · simp [laneSym, hf, hp, hq]
  · simp only [hq, List.length_cons] at hlen
    omega

theorem laneSym_pack (v : Sextet) {c : Codec} {v0 v1 v2 : Sextet} (hf : c.failed = false) (hp : c.padSeen = false)
    (hq : c.pend = [v0, v1, v2]) : laneSym v c = ({ c with pend := [] }, some (pack24 v0 v1 v2 v)) := by
  simp [laneSym, hf, hp, hq]

theorem lanePad_failed {c : Codec} (hf : c.failed = true) : lanePad c = (c, none) := by
  simp [lanePad, hf]

theorem lanePad_ok {c : Codec} (hf : c.failed = false) : lanePad c = (c.setPadSeen, none) := by
  simp [lanePad, hf]

/-- In skip-invalid mode the unit is discarded, whatever the state. -/
@[simp] theorem laneInv_skip (c : Codec) : laneInv true c = (c, none) := by
  unfold laneInv
  split <;> rfl

/-- In strict mode the message has failed afterwards, whatever the state. -/
@[simp] theorem laneInv_strict (c : Codec) : laneInv false c = (raiseInvalidInput c, none) := by
  obtain ⟨pend, padSeen, failed⟩ := c
  cases failed <;> rfl

theorem laneInv_failed (skip : Bool) {c : Codec} (hf : c.failed = true) : laneInv skip c = (c, none) := by
  simp [laneInv, hf]

/-- Settles O25: one lemma per case of each operation. -/
theorem laneOperations : Obligations.LaneOperations := fun c _ =>
  ⟨rfl,
    fun v => ⟨laneSym_failed v, laneSym_padSeen v, laneSym_push v, fun _ _ _ => laneSym_pack v⟩,
    lanePad_failed, lanePad_ok, fun skip => laneInv_failed skip, fun _ => laneInv_skip c, fun _ => laneInv_strict c⟩

/-! ### A lane as a beat of its own -/

/-- A ready decoder that is offered one lane takes on what the lane's operation answers. -/
theorem acceptBeat_oneLane {op : Codec → Codec × Option Group} {s : State} {c : Codec} {g : Option Group}
    (hoq : s.oq = []) (h : op s.codec = (c, g)) :
    acceptBeat (oneLane op) s = { s with codec := c, oq := beatsOf g } := by
  rw [acceptBeat_ready hoq, oneLane, h]

/-- A lane operation without a group writes the codec state alone. -/
theorem acceptBeat_oneLane_none {op : Codec → Codec × Option Group} {s : State} {c : Codec}
    (hoq : s.oq = []) (h : op s.codec = (c, none)) : acceptBeat (oneLane op) s = { s with codec := c } := by
  rw [acceptBeat_oneLane hoq h, beatsOf_none, ← hoq]

/-- Settles O26: a decoder that is ready takes the lane on and writes nothing; one that is not does not take it. -/
theorem decNopResult : Obligations.DecNopResult := by
  intro u s
  rw [exec, execDecNop]
  by_cases hoq : s.oq = []
  · rw [acceptBeat_oneLane_none hoq rfl]
  · rw [acceptBeat_busy hoq]

/-- Settles O27: the four cases of the lane operation, taken on by a ready decoder. -/
theorem decSymResult : Obligations.DecSymResult := by
  intro v s hoq
  simp only [exec, execDecSym]
  refine ⟨fun hf => ?drain, fun hf hp => ?raise, fun hf hp hlen => ?push, fun v0 v1 v2 hf hp hq => ?pack⟩
  case drain => rw [acceptBeat_oneLane_none hoq (laneSym_failed v hf)]
  case raise =>
    rw [acceptBeat_oneLane_none hoq (laneSym_padSeen v hf hp)]
    rfl
  case push => rw [acceptBeat_oneLane_none hoq (laneSym_push v hf hp hlen)]
  case pack =>
    rw [acceptBeat_oneLane hoq (laneSym_pack v hf hp hq), pack24_eq]
    rfl

/-- Settles O28: the two cases of the lane operation, taken on by a ready decoder. -/
theorem decPadResult : Obligations.DecPadResult := by
  intro s hoq
  simp only [exec, execDecPad]
  refine ⟨fun hf => ?_, fun hf => ?_⟩
  · rw [acceptBeat_oneLane_none hoq (lanePad_failed hf)]
  · rw [acceptBeat_oneLane_none hoq (lanePad_ok hf)]
    rfl

/-- Settles O29: the lane operation reads `failed` and `opt[0]` alone. -/
theorem decInvResult : Obligations.DecInvResult := by
  intro u s hoq
  simp only [exec, execDecInv]
  refine ⟨fun h => ?discard, fun hf hbit => ?raise⟩
  case discard =>
    have hnone : laneInv (skipOf s.opt) s.codec = (s.codec, none) := by
      rcases h with hf | hbit
      · exact laneInv_failed _ hf
      · have hskip : skipOf s.opt = true := hbit
        rw [hskip, laneInv_skip]
    rw [acceptBeat_oneLane_none hoq hnone]
  case raise =>
    have hskip : skipOf s.opt = false := hbit
    rw [hskip, acceptBeat_oneLane_none hoq (laneInv_strict s.codec)]
    rfl

/-! ### DEC_END -/

theorem endOf_empty {c : Codec} (hf : c.failed = false) (hq : c.pend = []) : endOf c = endBeat 0#2 0#8 0#8 := by
  simp [endOf, hf, hq]

theorem endOf_two {c : Codec} {v0 v1 : Sextet} (hf : c.failed = false) (hq : c.pend = [v0, v1]) :
    endOf c = endBeat 1#2 (v0 ++ v1.extractLsb' 4 2) 0#8 := by
  simp [endOf, hf, hq, tail12_eq]

theorem endOf_three {c : Codec} {v0 v1 v2 : Sextet} (hf : c.failed = false) (hq : c.pend = [v0, v1, v2]) :
    endOf c = endBeat 2#2 (v0 ++ v1.extractLsb' 4 2) (v1.extractLsb' 0 4 ++ v2.extractLsb' 2 4) := by
  simp [endOf, hf, hq, tail18hi_eq, tail18lo_eq]

/-- DEC_END reports a failure for an earlier one or for one pending sextet (R107). -/
theorem endOf_err_iff (c : Codec) : (endOf c).err = true ↔ c.failed = true ∨ c.pend.length = 1 := by
  cases hf : c.failed with
  | true => simp [endOf, hf]
  | false => rcases hq : c.pend with _ | ⟨v0, _ | ⟨v1, _ | ⟨v2, tl⟩⟩⟩ <;> simp [endOf, hf, hq]

theorem endOf_fail {c : Codec} (h : c.failed = true ∨ c.pend.length = 1) : endOf c = failBeat .invalidInput :=
  endOf_eq_failBeat ((endOf_err_iff c).2 h)

/-- The END beat reads `failed` and the pending sextets alone. -/
theorem endOf_congr {c d : Codec} (hf : c.failed = d.failed) (hq : c.pend = d.pend) : endOf c = endOf d := by
  unfold endOf
  rw [hf, hq]

/-- On success a tail of two sextets yields one byte and a tail of three yields two. -/
theorem endOf_bytes_length {c : Codec} (hlen : c.pend.length ≤ 3) (h : (endOf c).err = false) :
    (endOf c).bytes.length = c.pend.length - 1 := by
  have hok : ¬(c.failed = true ∨ c.pend.length = 1) := by rw [← endOf_err_iff, h]; decide
  obtain ⟨hf, hone⟩ := not_or.1 hok
  rw [Bool.not_eq_true] at hf
  rcases hq : c.pend with _ | ⟨v0, _ | ⟨v1, _ | ⟨v2, tl⟩⟩⟩
  · rw [endOf_empty hf hq]
    rfl
  · simp [hq] at hone
  · rw [endOf_two hf hq]
    rfl
  · obtain rfl : tl = [] := List.eq_nil_of_length_eq_zero (by simp [hq] at hlen; omega)
    rw [endOf_three hf hq]
    rfl

/-- A last beat on a ready decoder: the beats of its lanes, the END beat of the codec state they leave, and the reset
codec state (R107, R108). -/
theorem exec_decEnd_ready (l0 l1 l2 l3 : Lane) {s : State} (h : s.oq = []) :
    exec (.decEnd l0 l1 l2 l3) s = .next { s with
      codec := Codec.reset
      oq := (decLanes (skipOf s.opt) [l0, l1, l2, l3] s.codec).2
        ++ [endOf (decLanes (skipOf s.opt) [l0, l1, l2, l3] s.codec).1] } := by
  rw [exec, execDecEnd, acceptBeat_ready h, decBeat_last]

/-- Settles O30: lanes that hold no unit leave the codec state to DEC_END, whose END beat is written out per case. -/
theorem decEndResult : Obligations.DecEndResult := by
  intro u0 u1 u2 u3 s hoq i ended
  have hexec : exec i s = .next (ended (endOf s.codec)) := by
    rw [exec_decEnd_ready _ _ _ _ hoq]
    rfl
  simp only [hexec]
  refine ⟨fun h => ?failure, fun hf hq => ?empty, fun v0 v1 hf hq => ?two, fun v0 v1 v2 hf hq => ?three⟩
  case failure =>
    rw [endOf_fail h]
    rfl
  case empty =>
    rw [endOf_empty hf hq]
    rfl
  case two =>
    rw [endOf_two hf hq]
    rfl
  case three =>
    rw [endOf_three hf hq]
    rfl

/-- Settles O32: over a list of four lanes the fold evaluates to the lanes written out one by one. -/
theorem decBeatFold : Obligations.DecBeatFold := by
  intro l0 l1 l2 l3 s hoq skip r0 r1 r2 r3 outs
  have hlanes : decLanes (skipOf s.opt) [l0, l1, l2, l3] s.codec = (r3.1, outs) := rfl
  exact ⟨by rw [exec_decb_ready _ _ _ _ hoq, hlanes], by rw [exec_decEnd_ready _ _ _ _ hoq, hlanes]; rfl⟩

/-- Settles O55: the bytes of a tail are cut above the unused bits; a failed message has no bytes at all. -/
theorem unusedBitsAreDiscarded : Obligations.UnusedBitsAreDiscarded := by
  refine ⟨fun v0 v1 w1 p f h => ?two, fun v0 v1 v2 w2 p f h => ?three, by decide, by decide⟩
  case two =>
    cases f with
    | true => rfl
    | false => rw [decEndOp, decEndOp, endOf_two rfl rfl, endOf_two rfl rfl, h]
  case three =>
    cases f with
    | true => rfl
    | false => rw [decEndOp, decEndOp, endOf_three rfl rfl, endOf_three rfl rfl, h]

/-! ### Phases and flags -/

theorem phase_failed_iff (c : Codec) : c.phase = .failed ↔ c.failed = true := by
  cases hf : c.failed <;> cases hp : c.padSeen <;> simp [Codec.phase, hf, hp]

/-- A symbol in phase DATA is pushed or completes a group; no flag is written (R103). -/
theorem laneSym_data_phase (v : Sextet) {c : Codec} (hf : c.failed = false) (hp : c.padSeen = false) :
    (laneSym v c).1.phase = .data := by
  rcases hq : c.pend with _ | ⟨v0, _ | ⟨v1, _ | ⟨v2, tl⟩⟩⟩ <;> simp [laneSym, Codec.phase, hf, hp, hq]

/-- Settles O38: the table of the phases, row by row. -/
theorem phaseTransitions : Obligations.PhaseTransitions := by
  refine ⟨rfl, fun c => ⟨rfl, fun v => ?sym, ?pad, ?strict, ?skip, rfl, ?err⟩⟩
  case sym =>
    cases hf : c.failed with
    | true => simp [laneSym_failed v hf, Codec.phase, hf]
    | false =>
      cases hp : c.padSeen with
      | true => simp [laneSym_padSeen v hf hp, Codec.phase, hf, hp]
      | false =>
        rw [laneSym_data_phase v hf hp]
        simp [Codec.phase, hf, hp]
  case pad =>
    cases hf : c.failed with
    | true => simp [lanePad_failed hf, Codec.phase, hf]
    | false => cases hp : c.padSeen <;> simp [lanePad_ok hf, Codec.phase, hf, hp]
  case strict => rw [laneInv_strict, phase_failed_iff, raiseInvalidInput_failed]
  case skip => rw [laneInv_skip]
  case err =>
    rw [phase_failed_iff]
    exact endOf_err_iff c

/-- From `c` to `c'` neither flag is cleared, and a failed message is left as it is (R106, R119). -/
def KeepsFlags (c c' : Codec) : Prop :=
  (c.failed = true → c' = c) ∧ (c.padSeen = true → c'.padSeen = true)

theorem KeepsFlags.refl (c : Codec) : KeepsFlags c c := ⟨fun _ => rfl, id⟩

theorem KeepsFlags.trans {c d e : Codec} (hcd : KeepsFlags c d) (hde : KeepsFlags d e) : KeepsFlags c e := by
  refine ⟨fun hf => ?_, fun hp => hde.2 (hcd.2 hp)⟩
  have hd := hcd.1 hf
  rw [hde.1 (hd ▸ hf), hd]

theorem decLane_keepsFlags (skip : Bool) (l : Lane) (c : Codec) : KeepsFlags c (decLane skip l c).1 := by
  refine ⟨fun hf => by rw [decLane_failed hf], fun hp => ?_⟩
  rcases decLane_cases skip l c with
    e | ⟨_, -, -, -, -, -, e⟩ | ⟨_, _, _, _, _, -, -, -, -, -, e⟩ | ⟨-, -, -, e⟩ | ⟨-, -, -, e⟩ <;> rw [e]
  · exact hp
  · exact hp
  · exact hp
  · rfl
  · exact hp

theorem decLanes_keepsFlags (skip : Bool) (ls : List Lane) (c : Codec) : KeepsFlags c (decLanes skip ls c).1 := by
  induction ls generalizing c with
  | nil => exact .refl c
  | cons l ls ih => exact (decLane_keepsFlags skip l c).trans (ih _)

theorem acceptBeat_keepsFlags {respond : Codec → Codec × List DecOutBeat} (h : ∀ c, KeepsFlags c (respond c).1)
    (s : State) : KeepsFlags s.codec (acceptBeat respond s).codec := by
  by_cases hoq : s.oq = []
  · rw [acceptBeat_ready hoq]
    exact h s.codec
  · rw [acceptBeat_busy hoq]
    exact .refl s.codec

/-- Settles O39: each lane operation, and each lane of a DECB, keeps the flags; the operations of the encoder do not
touch the decoder. -/
theorem onlyDecEndClearsFlags : Obligations.OnlyDecEndClearsFlags := by
  intro i s t hend he
  have accepts (respond : Codec → Codec × List DecOutBeat) (h : ∀ c, KeepsFlags c (respond c).1)
      (hexec : exec i s = .next (acceptBeat respond s)) : KeepsFlags s.codec t.codec := by
    obtain rfl := Host.Outcome.next.inj (hexec.symm.trans he)
    exact acceptBeat_keepsFlags h s
  have other (hcodec : t.codec = s.codec) : KeepsFlags s.codec t.codec := by
    rw [hcodec]
    exact .refl s.codec
  obtain ⟨-, -, -, hencoder, hlut, -⟩ := blocksAreIndependent i s t he
  change KeepsFlags s.codec t.codec
  cases i with
  | enc0 => exact other (hencoder rfl).1
  | enc1 => exact other (hencoder rfl).1
  | enc2 => exact other (hencoder rfl).1
  | enc3 => exact other (hencoder rfl).1
  | encLut => exact other (hlut rfl).1
  | decNop => exact accepts (oneLane laneNop) .refl rfl
  | decSym v =>
    refine accepts (oneLane (laneSym v)) (fun c => ?_) rfl
    rw [← decLane_sym (skip := false) (decClass_encLut v)]
    exact decLane_keepsFlags _ _ c
  | decPad =>
    refine accepts (oneLane lanePad) (fun c => ?_) rfl
    rw [← decLane_pad (skip := false) decClass_padChar]
    exact decLane_keepsFlags _ _ c
  | decInv =>
    refine accepts (oneLane (laneInv (skipOf s.opt))) (fun c => ?_) rfl
    rw [← decLane_inv (u := 0x21#8) (by decide)]
    exact decLane_keepsFlags _ _ c
  | decb l0 l1 l2 l3 =>
    exact accepts (decBeat (skipOf s.opt) false [l0, l1, l2, l3]) (decLanes_keepsFlags _ _) rfl
  | decEnd l0 l1 l2 l3 => exact absurd rfl (hend l0 l1 l2 l3)

/-- The lanes of a failed message emit nothing and change nothing (R106). -/
theorem decLanes_failed (skip : Bool) (ls : List Lane) {c : Codec} (h : c.failed = true) :
    decLanes skip ls c = (c, []) := by
  induction ls with
  | nil => rfl
  | cons l ls ih => rw [decLanes_cons, decLane_failed h, ih, beatsOf_none, List.append_nil]

/-- Settles O35: every lane of the beat drains. -/
theorem failedMessageDrains : Obligations.FailedMessageDrains := by
  refine ⟨fun skip l c => decLane_failed, fun l0 l1 l2 l3 s hoq hf => ?_⟩
  rw [exec_decb_ready _ _ _ _ hoq, decLanes_failed _ _ hf, ← hoq]

/-! ### The response to one beat -/

theorem decBeat_pend_length_le {skip last : Bool} {ls : List Lane} {c : Codec} (hp : c.pend.length ≤ 3) :
    (decBeat skip last ls c).1.pend.length ≤ 3 := by
  cases last with
  | false => exact (decLanes_bounds skip ls c hp).1
  | true => simp [decBeat_last]

theorem decBeat_length_le_two {skip last : Bool} {ls : List Lane} {c : Codec} (hls : ls.length ≤ 4)
    (hp : c.pend.length ≤ 3) : (decBeat skip last ls c).2.length ≤ 2 := by
  have hone := decLanes_length_le_one (skip := skip) hls hp
  cases last with
  | false => exact hone.trans (by decide)
  | true => simpa [decBeat_last] using hone

theorem endOf_isData (c : Codec) : (endOf c).isData = false := by
  simp [DecOutBeat.isData]

/-- The lanes emit no END beat. -/
theorem decLanes_filter_last (skip : Bool) (ls : List Lane) (c : Codec) :
    (decLanes skip ls c).2.filter DecOutBeat.last = [] := by
  refine List.filter_eq_nil_iff.2 fun b hb => ?_
  simp [isData_last (decLanes_data skip ls c b hb)]

/-- Settles O34: the lanes emit at most one beat, a data beat; a last beat adds its END beat behind it. -/
theorem atMostTwoBeatsPerBeat : Obligations.AtMostTwoBeatsPerBeat := by
  intro skip last l0 l1 l2 l3 c hp
  refine ⟨decBeat_pend_length_le hp, decBeat_length_le_two (Nat.le_refl 4) hp, ?_⟩
  have hone : (decLanes skip [l0, l1, l2, l3] c).2.length ≤ 1 := decLanes_length_le_one (Nat.le_refl 4) hp
  have hdata := (List.length_filter_le DecOutBeat.isData _).trans hone
  have hlast := decLanes_filter_last skip [l0, l1, l2, l3] c
  cases last with
  | false => simpa [decBeat_notLast, hlast] using hdata
  | true => simpa [decBeat_last, hlast, endOf_isData] using hdata

/-! ### The fold of the units of a message -/

theorem decodeUnits_cons (skip : Bool) (u : Byte) (us : List Byte) (c : Codec) :
    decodeUnits skip (u :: us) c =
      ((decodeUnits skip us (decLane skip (unitLane u) c).1).1,
        bytesOf (decLane skip (unitLane u) c).2 ++ (decodeUnits skip us (decLane skip (unitLane u) c).1).2) := rfl

theorem decodeUnits_encLut (skip : Bool) (v : Sextet) (us : List Byte) (c : Codec) :
    decodeUnits skip (encLut v :: us) c =
      ((decodeUnits skip us (laneSym v c).1).1,
        bytesOf (laneSym v c).2 ++ (decodeUnits skip us (laneSym v c).1).2) := by
  rw [decodeUnits_cons, unitLane, decLane_sym (decClass_encLut v)]

/-- Padding units leave what the END beat reads (R111). -/
theorem decodeUnits_replicate_padChar (skip : Bool) (k : Nat) (c : Codec) :
    (decodeUnits skip (List.replicate k padChar) c).2 = []
      ∧ endOf (decodeUnits skip (List.replicate k padChar) c).1 = endOf c := by
  induction k generalizing c with
  | zero => exact ⟨rfl, rfl⟩
  | succ k ih =>
    have hpad : (lanePad c).2 = none ∧ endOf (lanePad c).1 = endOf c := by
      cases hf : c.failed with
      | true => simp [lanePad_failed hf]
      | false => exact lanePad_ok hf ▸ ⟨rfl, endOf_congr rfl rfl⟩
    obtain ⟨hnone, hend⟩ := hpad
    obtain ⟨hbytes, hend'⟩ := ih (lanePad c).1
    rw [List.replicate_succ, decodeUnits_cons, unitLane, decLane_pad decClass_padChar]
    exact ⟨by rw [hnone, hbytes]; rfl, hend'.trans hend⟩

/-- Four symbols at the start of a message complete a group and leave no trace (R103). -/
theorem decodeUnits_group (skip : Bool) (v0 v1 v2 v3 : Sextet) (us : List Byte) :
    decodeUnits skip (encLut v0 :: encLut v1 :: encLut v2 :: encLut v3 :: us) Codec.reset =
      ((decodeUnits skip us Codec.reset).1,
        bytesOf (some (pack24 v0 v1 v2 v3)) ++ (decodeUnits skip us Codec.reset).2) := by
  simp only [decodeUnits_encLut]
  rfl

/-! ### `Decode` -/

/-- The result of a message, by what its units leave and the END beat (R109). -/
theorem decodeText_eq (us : List Byte) (skip : Bool) :
    decodeText us skip =
      if (endOf (decodeUnits skip us Codec.reset).1).err then .error .invalidInput
      else .ok ((decodeUnits skip us Codec.reset).2 ++ (endOf (decodeUnits skip us Codec.reset).1).bytes) := rfl

theorem decodeText_of_fail {us : List Byte} {skip : Bool} (h : (endOf (decodeUnits skip us Codec.reset).1).err = true) :
    decodeText us skip = .error .invalidInput := by
  rw [decodeText_eq, if_pos h]

theorem decodeText_of_ok {us : List Byte} {skip : Bool} (h : (endOf (decodeUnits skip us Codec.reset).1).err = false) :
    decodeText us skip =
      .ok ((decodeUnits skip us Codec.reset).2 ++ (endOf (decodeUnits skip us Codec.reset).1).bytes) := by
  rw [decodeText_eq, h]
  rfl

/-- A message fails for a failed unit or for one pending sextet at its end. -/
theorem decodeText_error {us : List Byte} {skip : Bool}
    (h : (decodeUnits skip us Codec.reset).1.failed = true ∨ (decodeUnits skip us Codec.reset).1.pend.length = 1) :
    decodeText us skip = .error .invalidInput :=
  decodeText_of_fail ((endOf_err_iff _).2 h)

/-- Settles O54: padding units complete no group, and the END beat does not read `pad_seen`. -/
theorem paddingIsNotCounted : Obligations.PaddingIsNotCounted := by
  intro us k skip
  obtain ⟨hbytes, hend⟩ := decodeUnits_replicate_padChar skip k (decodeUnits skip us Codec.reset).1
  rw [padChar] at hbytes hend
  rw [decodeText_eq, decodeText_eq, decodeUnits_append, hbytes, hend, List.append_nil]

/-! ### Round trip -/

/-- A full group of the text decodes to its three bytes, in front of what the rest decodes to. -/
theorem decodeText_group (last : Bool) (b0 b1 b2 : Byte) (us : List Byte) (skip : Bool) :
    decodeText ((enc3Out last b0 b1 b2).chars ++ us) skip = (decodeText us skip).map ([b0, b1, b2] ++ ·) := by
  have hchars : (enc3Out last b0 b1 b2).chars ++ us =
      encLut (regroup24 b0 b1 b2).s0 :: encLut (regroup24 b0 b1 b2).s1 :: encLut (regroup24 b0 b1 b2).s2
        :: encLut (regroup24 b0 b1 b2).s3 :: us := rfl
  rw [hchars, decodeText_eq, decodeUnits_group, pack24_regroup24, decodeText_eq]
  split
  · rfl
  · simp [Except.map, bytesOf]

/-- The text of one byte decodes to it: the tail of two sextets holds its eight bits on top. -/
theorem decodeText_encodeText_one (b0 : Byte) (skip : Bool) : decodeText (encodeText [b0]) skip = .ok [b0] := by
  have hbits : tail12 (regroup24 b0 0#8 0#8).s0 (regroup24 b0 0#8 0#8).s1 = b0 := by
    obtain ⟨hs0, hs1, -, -⟩ := toNat_regroup24 b0 0#8 0#8
    apply BitVec.eq_of_toNat_eq
    rw [toNat_tail12, hs0, hs1]
    simp only [BitVec.toNat_ofNat]
    omega
  rw [encodeText_one, padChar, paddingIsNotCounted, decodeText_eq]
  simp only [decodeUnits_encLut]
  exact congrArg (fun y => Except.ok [y]) hbits

/-- The text of two bytes decodes to them: the tail of three sextets holds their sixteen bits on top. -/
theorem decodeText_encodeText_two (b0 b1 : Byte) (skip : Bool) :
    decodeText (encodeText [b0, b1]) skip = .ok [b0, b1] := by
  have hbits : tail18hi (regroup24 b0 b1 0#8).s0 (regroup24 b0 b1 0#8).s1 (regroup24 b0 b1 0#8).s2 = b0
      ∧ tail18lo (regroup24 b0 b1 0#8).s0 (regroup24 b0 b1 0#8).s1 (regroup24 b0 b1 0#8).s2 = b1 := by
    obtain ⟨hs0, hs1, hs2, -⟩ := toNat_regroup24 b0 b1 0#8
    have hb1 := b1.isLt
    constructor <;> apply BitVec.eq_of_toNat_eq <;>
      simp only [toNat_tail18hi, toNat_tail18lo, hs0, hs1, hs2, BitVec.toNat_ofNat] <;> omega
  rw [encodeText_two, padChar, paddingIsNotCounted, decodeText_eq]
  simp only [decodeUnits_encLut]
  exact congrArg₂ (fun y z => Except.ok [y, z]) hbits.1 hbits.2

/-- Settles O50, by induction on the groups of the bytes: each full group decodes to its bytes and leaves no trace. -/
theorem roundTrip : Obligations.RoundTrip := by
  intro bs skip
  induction bs using encodeText.induct with
  | case1 => rfl
  | case2 b0 => exact decodeText_encodeText_one b0 skip
  | case3 b0 b1 => exact decodeText_encodeText_two b0 b1 skip
  | case4 b0 b1 b2 bs ih =>
    rw [encodeText_full false, decodeText_group, ih]
    rfl

/-- Settles O59: no unit leaves the codec state of reset, whose END beat holds no byte. -/
theorem emptyInput : Obligations.EmptyInput := by
  refine ⟨fun _ => rfl, fun s hcodec hoq => ⟨endBeat 0#2 0#8 0#8, ?_, by decide⟩⟩
  have hword : (⟨40, 0x1000000000⟩ : BeatWord) = decInWord true noLane noLane noLane noLane := rfl
  rw [hword, perform_decInWord, acceptBeat_ready hoq, hcodec]
  rfl

/-! ### What fails a message -/

/-- A unit of class INV fails the message in strict mode (R105). -/
theorem decodeUnits_inv_fails {us : List Byte} (h : us.any isInv = true) (c : Codec) :
    (decodeUnits false us c).1.failed = true := by
  induction us generalizing c with
  | nil => cases h
  | cons u us ih =>
    rw [decodeUnits_cons]
    cases hu : isInv u with
    | false => exact ih (by simpa [hu] using h) _
    | true =>
      have hclass : decClass u = .inv := by simpa [isInv] using hu
      rw [unitLane, decLane_inv hclass, laneInv_strict, decodeUnits_failed _ _ (raiseInvalidInput_failed c)]
      rfl

/-- A symbol fails the message once padding was seen, in both modes (R103). -/
theorem laneSym_after_pad_fails (v : Sextet) {c : Codec} (hp : c.padSeen = true) : (laneSym v c).1.failed = true := by
  cases hf : c.failed with
  | true => rw [laneSym_failed v hf, hf]
  | false => rw [laneSym_padSeen v hf hp, raiseInvalidInput_failed]

theorem isSym_iff (u : Byte) : isSym u = true ↔ ∃ v, decClass u = .sym v := by
  cases hclass : decClass u <;> simp [isSym, hclass]

theorem decodeUnits_sym_after_pad_fails (skip : Bool) {us : List Byte} (h : us.any isSym = true) {c : Codec}
    (hp : c.padSeen = true) : (decodeUnits skip us c).1.failed = true := by
  induction us generalizing c with
  | nil => cases h
  | cons u us ih =>
    rw [decodeUnits_cons]
    cases hu : isSym u with
    | false => exact ih (by simpa [hu] using h) ((decLane_keepsFlags skip (unitLane u) c).2 hp)
    | true =>
      obtain ⟨v, hclass⟩ := (isSym_iff u).1 hu
      have hfails := laneSym_after_pad_fails v hp
      rw [unitLane, decLane_sym hclass, decodeUnits_failed _ _ hfails]
      exact hfails

theorem lanePad_padSeen {c : Codec} (hf : c.failed = false) : (lanePad c).1.padSeen = true := by
  rw [lanePad_ok hf, Codec.setPadSeen_padSeen]

/-- A symbol after padding fails the message, wherever the two stand (R146, X2). -/
theorem decodeUnits_symAfterPad_fails (skip : Bool) {us : List Byte} (h : symAfterPad us = true) (c : Codec) :
    (decodeUnits skip us c).1.failed = true := by
  induction us generalizing c with
  | nil => cases h
  | cons u us ih =>
    simp only [symAfterPad, Bool.or_eq_true, Bool.and_eq_true, beq_iff_eq] at h
    rcases h with ⟨hclass, hsym⟩ | h
    · cases hf : c.failed with
      | true => rw [decodeUnits_failed _ _ hf, hf]
      | false =>
        rw [decodeUnits_cons, unitLane, decLane_pad hclass]
        exact decodeUnits_sym_after_pad_fails skip hsym (lanePad_padSeen hf)
    · rw [decodeUnits_cons]
      exact ih h _

/-- In skip-invalid mode a message is folded as its units that are not of class INV are in strict mode (R114). -/
theorem decodeUnits_skip (us : List Byte) (c : Codec) :
    decodeUnits true us c = decodeUnits false (us.filter (fun u => !isInv u)) c := by
  induction us generalizing c with
  | nil => rfl
  | cons u us ih =>
    rw [decodeUnits_cons]
    cases hclass : decClass u with
    | sym v =>
      rw [List.filter_cons_of_pos (by simp [isInv, hclass]), decodeUnits_cons, unitLane, decLane_sym hclass,
        decLane_sym hclass, ih]
    | pad =>
      rw [List.filter_cons_of_pos (by simp [isInv, hclass]), decodeUnits_cons, unitLane, decLane_pad hclass,
        decLane_pad hclass, ih]
    | inv =>
      rw [List.filter_cons_of_neg (by simp [isInv, hclass]), unitLane, decLane_inv hclass, laneInv_skip, ih]
      rfl

/-! ### What a message that has not failed holds -/

theorem decodeUnits_pend_length_le (skip : Bool) (us : List Byte) {c : Codec} (hp : c.pend.length ≤ 3) :
    (decodeUnits skip us c).1.pend.length ≤ 3 := by
  induction us generalizing c with
  | nil => exact hp
  | cons u us ih => exact ih (decLane_bounds skip (unitLane u) c hp).1

/-- A symbol's six bits are pending or, with those before it, in a completed group. -/
theorem laneSym_bits (v : Sextet) {c : Codec} (hp : c.pend.length ≤ 3) (h : (laneSym v c).1.failed = false) :
    6 * (laneSym v c).1.pend.length + 8 * (bytesOf (laneSym v c).2).length = 6 * (c.pend.length + 1) := by
  cases hf : c.failed with
  | true => rw [laneSym_failed v hf, hf] at h; cases h
  | false =>
    cases hpad : c.padSeen with
    | true => rw [laneSym_after_pad_fails v hpad] at h; cases h
    | false =>
      rcases Nat.lt_or_eq_of_le hp with hlt | heq
      · rw [laneSym_push v hf hpad hlt]
        simp [bytesOf]
      · obtain ⟨v0, v1, v2, hq⟩ := List.length_eq_three.1 heq
        rw [laneSym_pack v hf hpad hq, heq]
        rfl

/-- One unit of a message that has not failed: a symbol brings six bits, any other unit none. -/
theorem decLane_bits (skip : Bool) (u : Byte) {c : Codec} (hp : c.pend.length ≤ 3)
    (h : (decLane skip (unitLane u) c).1.failed = false) :
    6 * (decLane skip (unitLane u) c).1.pend.length + 8 * (bytesOf (decLane skip (unitLane u) c).2).length =
      6 * (c.pend.length + ([u].filter isSym).length) := by
  cases hclass : decClass u with
  | sym v =>
    rw [unitLane, decLane_sym hclass] at h ⊢
    rw [laneSym_bits v hp h]
    simp [isSym, hclass]
  | pad =>
    rw [unitLane, decLane_pad hclass]
    cases hf : c.failed with
    | true => simp [lanePad_failed hf, isSym, hclass, bytesOf]
    | false => simp [lanePad_ok hf, isSym, hclass, bytesOf]
  | inv =>
    rw [unitLane, decLane_inv hclass]
    cases skip <;> simp [isSym, hclass, bytesOf]

/-- No bit of a symbol is lost in a message that has not failed: all are pending or in the bytes of its groups. -/
theorem decodeUnits_bits (skip : Bool) (us : List Byte) {c : Codec} (hp : c.pend.length ≤ 3)
    (h : (decodeUnits skip us c).1.failed = false) :
    6 * (decodeUnits skip us c).1.pend.length + 8 * (decodeUnits skip us c).2.length =
      6 * (c.pend.length + (us.filter isSym).length) := by
  induction us generalizing c with
  | nil => rfl
  | cons u us ih =>
    rw [decodeUnits_cons] at h ⊢
    have hunit : (decLane skip (unitLane u) c).1.failed = false := by
      by_contra hfail
      have hfail' : (decLane skip (unitLane u) c).1.failed = true := by simpa using hfail
      rw [decodeUnits_failed _ _ hfail', hfail'] at h
      cases h
    have hbits := decLane_bits skip u hp hunit
    have hrest := ih (decLane_bounds skip (unitLane u) c hp).1 h
    have hsyms : ((u :: us).filter isSym).length = ([u].filter isSym).length + (us.filter isSym).length := by
      rw [← List.length_append, ← List.filter_append, List.singleton_append]
    simp only [List.length_append, hsyms]
    omega

/-- A message of `m` symbols that has not failed leaves `m` modulo 4 of them pending. -/
theorem decodeUnits_pend_length {skip : Bool} {us : List Byte}
    (h : (decodeUnits skip us Codec.reset).1.failed = false) :
    (decodeUnits skip us Codec.reset).1.pend.length = (us.filter isSym).length % 4 := by
  have hle := decodeUnits_pend_length_le skip us (c := Codec.reset) (by decide)
  have hbits := decodeUnits_bits skip us (by decide) h
  rw [Codec.reset_pend, List.length_nil] at hbits
  omega

/-- Settles O51: skip-invalid mode folds the filtered text; the other failures are those of a unit and of the end. -/
theorem skipModeIsFilter : Obligations.SkipModeIsFilter := by
  refine ⟨fun us => ?filter, fun us h => ?strict, fun us h => ?skip⟩
  case filter => rw [decodeText_eq, decodeText_eq, decodeUnits_skip]
  case strict => exact decodeText_error (.inl (decodeUnits_inv_fails h _))
  case skip =>
    refine decodeText_error ?_
    rcases h with h | h
    · exact .inl (decodeUnits_symAfterPad_fails true h _)
    · cases hf : (decodeUnits true us Codec.reset).1.failed with
      | true => exact .inl rfl
      | false => exact .inr ((decodeUnits_pend_length hf).trans h)

/-! ### The two outcomes of `Decode` -/

/-- A message fails with the failure beat as its END beat, or answers the bytes of its groups and of its END beat. -/
theorem decodeText_cases (us : List Byte) (skip : Bool) :
    (endOf (decodeUnits skip us Codec.reset).1 = failBeat .invalidInput ∧ decodeText us skip = .error .invalidInput)
      ∨ ((endOf (decodeUnits skip us Codec.reset).1).err = false
        ∧ decodeText us skip =
          .ok ((decodeUnits skip us Codec.reset).2 ++ (endOf (decodeUnits skip us Codec.reset).1).bytes)) := by
  cases herr : (endOf (decodeUnits skip us Codec.reset).1).err with
  | true => exact .inl ⟨endOf_eq_failBeat herr, decodeText_of_fail herr⟩
  | false => exact .inr ⟨rfl, decodeText_of_ok herr⟩

/-- `pend_cnt` stays, or counts on modulo 4 (R12). -/
theorem decLane_pendCnt (skip : Bool) (l : Lane) {c : Codec} (hp : c.pendCnt ≤ 3) :
    (decLane skip l c).1.pendCnt = c.pendCnt ∨ (decLane skip l c).1.pendCnt = (c.pendCnt + 1) % 4 := by
  unfold Codec.pendCnt at hp ⊢
  rcases decLane_cases skip l c with
    e | ⟨v, -, -, -, -, hlt, e⟩ | ⟨v, v0, v1, v2, tl, -, -, -, -, hq, e⟩ | ⟨-, -, -, e⟩ | ⟨-, -, -, e⟩ <;> rw [e]
  · exact .inl rfl
  · right
    rw [List.length_append, List.length_singleton]
    omega
  · right
    simp only [hq, List.length_cons] at hp
    simp only [hq, List.length_cons, List.length_nil]
    omega
  · exact .inl rfl
  · exact .inl rfl

/-- Settles O53: the bits of the symbols are in the groups, six or twelve of them pending at the end give one or two
bytes, and a single pending sextet fails the message. -/
theorem decodeLength : Obligations.DecodeLength := by
  refine ⟨fun skip l c hp => ⟨decLane_pendCnt skip l hp, rfl⟩, fun us skip ys hys => ?_⟩
  rcases decodeText_cases us skip with ⟨-, hfail⟩ | ⟨herr, hok⟩
  · rw [hfail] at hys
    cases hys
  · obtain rfl := Except.ok.inj (hok.symm.trans hys)
    have hle := decodeUnits_pend_length_le skip us (c := Codec.reset) (by decide)
    have htail := endOf_bytes_length hle herr
    have hgood : ¬((decodeUnits skip us Codec.reset).1.failed = true
        ∨ (decodeUnits skip us Codec.reset).1.pend.length = 1) := by
      rw [← endOf_err_iff, herr]
      decide
    obtain ⟨hf, hone⟩ := not_or.1 hgood
    rw [Bool.not_eq_true] at hf
    have hpend := decodeUnits_pend_length hf
    have hbits := decodeUnits_bits skip us (by decide) hf
    rw [Codec.reset_pend, List.length_nil] at hbits
    rw [List.length_append, htail]
    refine ⟨hpend ▸ hone, ?_, ?_⟩
    · split_ifs <;> omega
    · omega

/-! ### The host that sends beats -/

/-- A take of a shown beat hands it over. -/
theorem core_run_take {s : State} {d : DecOutBeat} {ds : List DecOutBeat} {rest : List HostAction}
    (hoq : s.oq = d :: ds) (h : s.schedule = .take :: rest) (n : Nat) :
    core.run (n + 1) s = core.run n { s with schedule := rest, oq := ds, decRecv := s.decRecv ++ [d] } :=
  core_run_next ((stepPerformsOtherActions s rest).1 d ds h hoq) n

/-- A take of nothing is used up (log 9). -/
theorem core_run_take_nothing {s : State} {rest : List HostAction} (hoq : s.oq = []) (h : s.schedule = .take :: rest)
    (n : Nat) : core.run (n + 1) s = core.run n { s with schedule := rest } :=
  core_run_next ((stepPerformsOtherActions s rest).2.1 h hoq) n

/-- Two takes empty a queue of at most two beats (R15). -/
theorem core_run_take_take {s : State} {rest : List HostAction} (hoq : s.oq.length ≤ 2)
    (h : s.schedule = .take :: .take :: rest) (n : Nat) :
    core.run (n + 2) s = core.run n { s with schedule := rest, oq := [], decRecv := s.decRecv ++ s.oq } := by
  rcases hq : s.oq with _ | ⟨d0, _ | ⟨d1, tl⟩⟩
  · rw [core_run_take_nothing hq h]
    refine (core_run_take_nothing (s := { s with schedule := .take :: rest }) hq rfl n).trans ?_
    rw [hq, List.append_nil]
  · rw [core_run_take hq h]
    exact core_run_take_nothing rfl rfl n
  · obtain rfl : tl = [] := List.eq_nil_of_length_eq_zero (by simp only [hq, List.length_cons] at hoq; omega)
    rw [core_run_take hq h]
    refine (core_run_take rfl rfl n).trans ?_
    rw [List.append_assoc, List.singleton_append]

/-- Sending one beat to a ready decoder hands over its response, and the decoder is ready again. -/
theorem core_run_sendBeat {b : DecIn} {s : State} {rest : List HostAction} (hp : s.codec.pend.length ≤ 3)
    (hoq : s.oq = []) (h : s.schedule = .present b.word :: .take :: .take :: rest) (n : Nat) :
    core.run (n + 3) s = core.run n { s with
      codec := (decBeat (skipOf s.opt) b.last b.lanes s.codec).1
      schedule := rest
      decRecv := s.decRecv ++ (decBeat (skipOf s.opt) b.last b.lanes s.codec).2 } := by
  have hstep := (step_cons h).trans (perform_decInWord b.last b.l0 b.l1 b.l2 b.l3 _)
  rw [acceptBeat_ready (s := { s with schedule := .take :: .take :: rest }) hoq] at hstep
  have hlen : (decBeat (skipOf s.opt) b.last b.lanes s.codec).2.length ≤ 2 :=
    decBeat_length_le_two (ls := b.lanes) (Nat.le_refl 4) hp
  rw [core_run_next hstep, hoq]
  exact core_run_take_take hlen rfl n

/-- Sending beats to a ready decoder hands over their responses, and the decoder is ready again. -/
theorem core_run_sendDec (bs : List DecIn) (rest : List HostAction) (s : State) (hp : s.codec.pend.length ≤ 3)
    (hoq : s.oq = []) (h : s.schedule = sendDec bs ++ rest) :
    core.run (sendDec bs).length s = .next { s with
      codec := (decBeats (skipOf s.opt) bs s.codec).1
      schedule := rest
      decRecv := s.decRecv ++ (decBeats (skipOf s.opt) bs s.codec).2 } := by
  induction bs generalizing s with
  | nil =>
    have hrest : s.schedule = rest := h
    rw [← hrest, decBeats_nil, List.append_nil]
    rfl
  | cons b bs ih =>
    have hlen : (sendDec (b :: bs)).length = (sendDec bs).length + 3 := rfl
    rw [hlen, core_run_sendBeat (rest := sendDec bs ++ rest) hp hoq h]
    refine Eq.trans (ih _ (decBeat_pend_length_le hp) hoq rfl) ?_
    rw [decBeats_cons, List.append_assoc]

/-- What the END beat of a message and the bytes in front of it say is the message's result (R109, R110). -/
theorem decodeText_result {ds : List DecOutBeat} {us : List Byte} {skip : Bool}
    (hbytes : ds.flatMap DecOutBeat.bytes = (decodeUnits skip us Codec.reset).2) :
    match decodeText us skip with
    | .ok ys => (endOf (decodeUnits skip us Codec.reset).1).err = false
        ∧ ds.flatMap DecOutBeat.bytes ++ (endOf (decodeUnits skip us Codec.reset).1).bytes = ys
    | .error k => k = .invalidInput ∧ (endOf (decodeUnits skip us Codec.reset).1).err = true
        ∧ (endOf (decodeUnits skip us Codec.reset).1).kind = 1#1
        ∧ (endOf (decodeUnits skip us Codec.reset).1).count = 0#2 := by
  rcases decodeText_cases us skip with ⟨hend, hfail⟩ | ⟨herr, hok⟩
  · rw [hfail, hend]
    exact ⟨rfl, rfl, rfl, rfl⟩
  · rw [hok, hbytes]
    exact ⟨herr, rfl⟩

/-- Settles O56: the response to a framed message is data beats and one END beat; in any run they are received or still
owed, and the host that takes twice after each beat has received them all. -/
theorem decodeMessageBeats : Obligations.DecodeMessageBeats := by
  refine ⟨fun n s skip hcodec hoq hcont hskip hframed => ?run, fun bs rest s hframed hcodec hoq hs => ?send⟩
  case run =>
    obtain ⟨t, hrun, hsched, ht, howed⟩ := run_owed skip n s hcont hskip
    obtain ⟨ds, hbeats, hdata, hbytes⟩ := decBeats_framed skip _ hframed Codec.reset
    rw [hcodec, hbeats] at ht howed
    refine ⟨t, ds, _, hrun, ht, hsched, by rw [howed, hoq, List.append_nil, List.append_assoc], hdata, endOf_last _,
      hbytes, decodeText_result hbytes⟩
  case send =>
    obtain ⟨ds, hbeats, hdata, hbytes⟩ := decBeats_framed (skipOf s.opt) bs hframed Codec.reset
    have hrun := core_run_sendDec bs rest s (by simp [hcodec]) hoq hs
    rw [hcodec, hbeats, ← List.append_assoc] at hrun
    exact ⟨ds, _, by rw [hcodec]; exact hrun, hdata, endOf_last _, hbytes, decodeText_result hbytes⟩

end Sys2Proof.Machine

/-! ## The host: its procedures for `encode` and `decode`, and the six public operations -/

namespace Sys2Proof.Machine

/-! ### `encode(B)` -/

/-- The host's beats for `encode(B)` keep the framing of R38: full groups, then the one beat that is last. -/
theorem hostEncodeBeats_framed (bytes : List Byte) : encFramed (hostEncodeBeats bytes) = true := by
  induction bytes using hostEncodeBeats.induct with
  | case1 => rfl
  | case2 b0 => rfl
  | case3 b0 b1 => rfl
  | case4 b0 b1 b2 => rfl
  | case5 b0 b1 b2 b3 bytes ih =>
    rw [hostEncodeBeats, encFramed, ih]
    · rfl
    · intro hnil
      rw [hnil] at ih
      cases ih

/-- The valid bytes of the host's beats are `B`, in order (R131). -/
theorem hostEncodeBeats_bytes (bytes : List Byte) : (hostEncodeBeats bytes).flatMap EncIn.bytes = bytes := by
  induction bytes using hostEncodeBeats.induct with
  | case1 => rfl
  | case2 b0 => rfl
  | case3 b0 b1 => rfl
  | case4 b0 b1 b2 => rfl
  | case5 b0 b1 b2 b3 bytes ih =>
    rw [hostEncodeBeats, List.flatMap_cons, ih]
    rfl

/-- Output beats of which the final one alone is last: the result is all their characters (R131). -/
theorem encResult_of_lasts {os : List EncOutBeat} {n : Nat}
    (h : os.map EncOutBeat.last = List.replicate n false ++ [true]) :
    encResult os = some (os.flatMap EncOutBeat.chars) := by
  induction n generalizing os with
  | zero =>
    obtain ⟨b, rfl, hlast⟩ := List.map_eq_singleton_iff.1 h
    simp [encResult, hlast]
  | succ n ih =>
    obtain ⟨b, os, rfl, hlast, hrest⟩ := List.map_eq_cons_iff.1 h
    simp [encResult, hlast, ih hrest]

/-- Settles O23: the host's beats are a framed message of the bytes, and the one beat that is last ends its result. -/
theorem hostEncodeObtainsEncode : Obligations.HostEncodeObtainsEncode := by
  intro bytes rest s hs
  obtain ⟨os, hrun, -, hchars, hlasts⟩ :=
    encodeMessageBeats (hostEncodeBeats bytes) rest s (hostEncodeBeats_framed bytes) hs
  rw [hostEncodeBeats_bytes] at hchars
  have hlength : (hostEncode bytes).length = (hostEncodeBeats bytes).length := List.length_map _
  exact ⟨os, hlength ▸ hrun, by rw [encResult_of_lasts hlasts, hchars]⟩

/-! ### `decode(U, options)` -/

/-- The host's beats for `decode(U, options)` keep the framing of R39: the final beat, and no other, is last. -/
theorem hostDecodeBeats_framed (units : List Byte) : decFramed (hostDecodeBeats units) = true := by
  induction units using hostDecodeBeats.induct with
  | case1 => rfl
  | case2 u0 => rfl
  | case3 u0 u1 => rfl
  | case4 u0 u1 u2 => rfl
  | case5 u0 u1 u2 u3 => rfl
  | case6 u0 u1 u2 u3 u4 units ih =>
    rw [hostDecodeBeats, decFramed, ih]
    · rfl
    · intro hnil
      rw [hnil] at ih
      cases ih

/-- The units in the lanes of the host's beats are `U`, in order (R133). -/
theorem hostDecodeBeats_units (units : List Byte) : (hostDecodeBeats units).flatMap DecIn.units = units := by
  induction units using hostDecodeBeats.induct with
  | case1 => rfl
  | case2 u0 => rfl
  | case3 u0 u1 => rfl
  | case4 u0 u1 u2 => rfl
  | case5 u0 u1 u2 u3 => rfl
  | case6 u0 u1 u2 u3 u4 units ih =>
    rw [hostDecodeBeats, List.flatMap_cons, ih]
    rfl

/-- The one recognised flag is the lowest bit of the host's options value (R59, R136). -/
theorem skipOf_hostOpt (options : Nat) : skipOf (hostOpt options) = (options % 2 == 1) := by
  rw [skipOf, hostOpt, Config.optSkipBit, BitVec.getLsbD_ofNat, Nat.testBit_zero]
  rfl

/-- Data beats and the beat that ends the message: all valid bytes, or the reported error and no bytes (R133, R151). -/
theorem decResult_of_end {ds : List DecOutBeat} {e : DecOutBeat} (hdata : ∀ d ∈ ds, d.isData = true)
    (hlast : e.last = true) :
    decResult (ds ++ [e]) =
      some (if e.err then .error (ErrorKind.ofCode e.kind) else .ok (ds.flatMap DecOutBeat.bytes ++ e.bytes)) := by
  induction ds with
  | nil => simp [decResult, hlast]
  | cons d ds ih =>
    obtain ⟨hd, hdata⟩ := List.forall_mem_cons.1 hdata
    rw [List.cons_append, decResult, isData_last hd, ih hdata, List.flatMap_cons, List.append_assoc]
    cases e.err <;> rfl

/-- The response to a framed message leaves the codec state of reset, and its result is `Decode` of the units (R109,
R151). -/
theorem decBeats_framed_result (skip : Bool) {bs : List DecIn} (hframed : decFramed bs = true) :
    (decBeats skip bs Codec.reset).1 = Codec.reset
      ∧ decResult (decBeats skip bs Codec.reset).2 = some (decodeText (bs.flatMap DecIn.units) skip) := by
  obtain ⟨ds, hbeats, hdata, hbytes⟩ := decBeats_framed skip bs hframed Codec.reset
  rw [hbeats]
  refine ⟨rfl, ?_⟩
  rw [decResult_of_end hdata (endOf_last _), hbytes]
  rcases decodeText_cases (bs.flatMap DecIn.units) skip with ⟨hend, hfail⟩ | ⟨herr, hok⟩
  · rw [hfail, hend]
    rfl
  · rw [hok, herr]
    rfl

/-- Sending a framed message to a decoder as after reset hands over its response and changes nothing else (R16). -/
theorem core_run_sendDec_framed {bs : List DecIn} (hframed : decFramed bs = true) {rest : List HostAction} {s : State}
    (hcodec : s.codec = Codec.reset) (hoq : s.oq = []) (hs : s.schedule = sendDec bs ++ rest) :
    core.run (sendDec bs).length s = .next { s with
      schedule := rest
      decRecv := s.decRecv ++ (decBeats (skipOf s.opt) bs Codec.reset).2 } := by
  rw [core_run_sendDec bs rest s (by simp [hcodec]) hoq hs, hcodec, (decBeats_framed_result _ hframed).1]

/-- Settles O57: `opt` is driven once and the host's beats are a framed message of the units; in any run the accepted
beats are one, and their response is received or still owed. -/
theorem hostDecodeObtainsDecode : Obligations.HostDecodeObtainsDecode := by
  intro units options
  rw [← skipOf_hostOpt]
  refine ⟨fun rest s hcodec hoq hs => ?procedure, fun n s hcodec hoq hcont hopt hframed hunits => ?anyRun⟩
  case procedure =>
    have hresult := (decBeats_framed_result (skipOf (hostOpt options)) (hostDecodeBeats_framed units)).2
    rw [hostDecodeBeats_units] at hresult
    have hdrive : step s =
        .next (setOpt (hostOpt options) { s with schedule := sendDec (hostDecodeBeats units) ++ rest }) :=
      step_cons hs
    have hsend := core_run_sendDec_framed (hostDecodeBeats_framed units) (rest := rest)
      (s := setOpt (hostOpt options) { s with schedule := sendDec (hostDecodeBeats units) ++ rest }) hcodec hoq rfl
    exact ⟨_, (core_run_next hdrive _).trans hsend, hresult⟩
  case anyRun =>
    obtain ⟨hreset, hresult⟩ := decBeats_framed_result (skipOf (hostOpt options)) hframed
    rw [hunits] at hresult
    obtain ⟨t, hrun, -, hcodec', howed⟩ := run_owed (skipOf (hostOpt options)) n s hcont hopt
    rw [hcodec] at hcodec' howed
    rw [hoq, List.append_nil] at howed
    exact ⟨t, _, hrun, hcodec'.trans hreset, howed, hresult⟩

/-! ### The six public operations -/

/-- Settles O60, row by row of R130: an encode message, a decode message with the caller's options, and one with the
options word 0 whose failure is answered by no bytes. -/
theorem publicOperationsObtained : Obligations.PublicOperationsObtained := by
  intro op rest s hcodec hoq hs
  cases op with
  | encodeToText bytes | encodeToBytes bytes =>
    obtain ⟨es, hrun, hresult⟩ := hostEncodeObtainsEncode bytes rest s hs
    exact ⟨es, [], by rw [List.append_nil]; exact hrun, fun _ => rfl, nofun, by simp [PublicOp.result, hresult]⟩
  | decodeFromText units options | decodeFromBytes units options =>
    obtain ⟨ds, hrun, hresult⟩ := (hostDecodeObtainsDecode units options).1 rest s hcodec hoq hs
    exact ⟨[], ds, by rw [List.append_nil]; exact hrun, nofun, fun _ => rfl, by simp [PublicOp.result, hresult]⟩
  | decodeFromTextStrict units | decodeFromBytesStrict units =>
    obtain ⟨ds, hrun, hresult⟩ := (hostDecodeObtainsDecode units 0).1 rest s hcodec hoq hs
    refine ⟨[], ds, by rw [List.append_nil]; exact hrun, nofun, fun _ => rfl, ?_⟩
    simp only [PublicOp.result, strictResult, hresult]
    rfl

end Sys2Proof.Machine

/-! ## Exceptions: what raises `InvalidInput`, what is reported, and when a decode fails -/

namespace Sys2Proof.Machine

/-! ### A lane that raises `InvalidInput` -/

/-- A lane that newly sets `failed` holds an invalid unit in strict mode or a symbol after padding, and does nothing but
raise (R146, R150). -/
theorem decLane_raises {skip : Bool} {l : Lane} {c : Codec} (hf : c.failed = false)
    (h : (decLane skip l c).1.failed = true) :
    l.keep = true
      ∧ ((decClass l.unit = .inv ∧ skip = false) ∨ (isSym l.unit = true ∧ c.padSeen = true))
      ∧ decLane skip l c = (raiseInvalidInput c, none) := by
  rcases decLane_cases skip l c with
    e | ⟨_, -, -, -, -, -, e⟩ | ⟨_, _, _, _, _, -, -, -, -, -, e⟩ | ⟨-, -, -, e⟩ | ⟨hkeep, -, hcause, e⟩
  case inr.inr.inr.inr =>
    refine ⟨hkeep, ?_, e⟩
    rcases hcause with ⟨v, hclass, hpad⟩ | hinv
    · exact .inr ⟨(isSym_iff _).2 ⟨v, hclass⟩, hpad⟩
    · exact .inl hinv
  all_goals simp [e, hf] at h

/-- An invalid unit in strict mode (X1) and a symbol after padding (X2) leave the message failed (R146). -/
theorem decLane_fails {skip : Bool} {u : Byte} {c : Codec}
    (h : (decClass u = .inv ∧ skip = false) ∨ (isSym u = true ∧ c.padSeen = true)) :
    (decLane skip (unitLane u) c).1.failed = true := by
  rcases h with ⟨hclass, rfl⟩ | ⟨hsym, hpad⟩
  · rw [unitLane, decLane_inv hclass, laneInv_strict, raiseInvalidInput_failed]
  · obtain ⟨v, hclass⟩ := (isSym_iff u).1 hsym
    rw [unitLane, decLane_sym hclass]
    exact laneSym_after_pad_fails v hpad

/-- The failure beat is the word `0x1C000000` (R58, R150). -/
theorem failBeat_word : (failBeat .invalidInput).word = 0x1C000000#29 := by decide

/-- Settles O36: a lane that raises does nothing else, and DEC_END's report is the one failure beat. -/
theorem raisingSetsOnlyFailed : Obligations.RaisingSetsOnlyFailed := by
  refine ⟨fun skip l c hf h => ?lane, fun c h => ⟨?word, rfl⟩⟩
  case lane =>
    obtain ⟨-, -, e⟩ := decLane_raises hf h
    exact e
  case word => rw [decEndOp, endOf_fail h, failBeat_word]

/-- Settles O37: the causes of a lane in both directions; DEC_END's report is the one failure beat. -/
theorem failureCauses : Obligations.FailureCauses := by
  refine ⟨fun skip l c hf => ⟨fun h => ?raised, fun ⟨hkeep, hcause⟩ => ?raises⟩,
    fun c => ⟨endOf_err_iff c, fun h => ?report⟩⟩
  case raised =>
    obtain ⟨hkeep, hcause, -⟩ := decLane_raises hf h
    exact ⟨hkeep, hcause⟩
  case raises =>
    obtain ⟨keep, u⟩ := l
    obtain rfl : keep = true := hkeep
    exact decLane_fails hcause
  case report =>
    have hfail : (decEndOp c).2 = failBeat .invalidInput := endOf_eq_failBeat h
    rw [hfail]
    exact ⟨rfl, rfl⟩

/-! ### The kinds that are reported -/

/-- A beat of one of R58's shapes does not report Unknown: only the failure shape reports at all. -/
theorem reportsUnknown_of_legal {b : DecOutBeat} (h : b.legal = true) : b.reportsUnknown = false := by
  simp only [DecOutBeat.legal, Bool.or_eq_true] at h
  rcases h with (hdata | hok) | hfail
  · simp only [DecOutBeat.isData, Bool.and_eq_true, Bool.not_eq_true'] at hdata
    simp [DecOutBeat.reportsUnknown, hdata]
  · simp only [DecOutBeat.isEndOk, Bool.and_eq_true, Bool.not_eq_true'] at hok
    simp [DecOutBeat.reportsUnknown, hok]
  · simp only [DecOutBeat.isEndFail, Bool.and_eq_true, beq_iff_eq] at hfail
    simp [DecOutBeat.reportsUnknown, ErrorKind.ofCode, hfail]

/-- Every beat of the response to an input beat has one of R58's shapes. -/
theorem decBeat_legal (skip last : Bool) (ls : List Lane) (c : Codec) :
    ∀ b ∈ (decBeat skip last ls c).2, b.legal = true := by
  intro b hb
  have hdata := decLanes_data skip ls c b
  cases last with
  | false => exact isData_legal (hdata hb)
  | true =>
    rw [decBeat_last] at hb
    rcases List.mem_append.1 hb with hb | hb
    · exact isData_legal (hdata hb)
    · rw [List.mem_singleton.1 hb]
      exact endOf_legal _

/-- Every decoder beat that is owed or received in `t` was so in `s` or has one of R58's shapes. -/
def AddsLegalBeats (s t : State) : Prop :=
  ∀ b ∈ t.oq ++ t.decRecv, b ∈ s.oq ++ s.decRecv ∨ b.legal = true

theorem AddsLegalBeats.of_eq {s t : State} (hoq : t.oq = s.oq) (hrecv : t.decRecv = s.decRecv) : AddsLegalBeats s t := by
  intro b hb
  rw [hoq, hrecv] at hb
  exact .inl hb

theorem acceptBeat_addsLegalBeats (skip last : Bool) (ls : List Lane) (s : State) :
    AddsLegalBeats s (acceptBeat (decBeat skip last ls) s) := by
  by_cases hoq : s.oq = []
  · rw [acceptBeat_ready hoq]
    intro b hb
    rcases List.mem_append.1 hb with hb | hb
    · exact .inr (decBeat_legal skip last ls s.codec b hb)
    · exact .inl (List.mem_append_right _ hb)
  · rw [acceptBeat_busy hoq]
    exact .of_eq rfl rfl

/-- Delivery moves a beat from the queue to the consumer. -/
theorem deliver_addsLegalBeats (s : State) : AddsLegalBeats s (deliver s) := by
  intro b hb
  rw [List.perm_append_comm.mem_iff, deliver_keeps_beats, List.perm_append_comm.mem_iff] at hb
  exact .inl hb

/-- A reset drops the queue; what was received stays. -/
theorem resetDecoder_addsLegalBeats (s : State) : AddsLegalBeats s (resetDecoder s) :=
  fun _ hb => .inl (List.mem_append_right s.oq hb)

theorem exec_addsLegalBeats {i : Instr} {s t : State} (hw : i.wellFormed = true) (he : exec i s = .next t) :
    AddsLegalBeats s t := by
  have decoder (hi : i.format = .decIn ∨ i.format = .decLane) : AddsLegalBeats s t := by
    obtain ⟨last, ls, -, hexec⟩ := exec_decoder hi hw s
    obtain rfl := Host.Outcome.next.inj (hexec.symm.trans he)
    exact acceptBeat_addsLegalBeats _ last ls s
  cases hi : i.format with
  | decIn => exact decoder (.inl hi)
  | decLane => exact decoder (.inr hi)
  | encIn =>
    obtain ⟨b, hexec⟩ := exec_encoder hi s
    obtain rfl := Host.Outcome.next.inj (hexec.symm.trans he)
    exact .of_eq rfl rfl
  | sextet =>
    obtain ⟨v, -, hexec⟩ := exec_lut hi s
    obtain rfl := Host.Outcome.next.inj (hexec.symm.trans he)
    exact .of_eq rfl rfl

theorem perform_addsLegalBeats {a : HostAction} {s t : State} (hp : perform a s = .next t) : AddsLegalBeats s t := by
  cases a with
  | present w =>
    cases hd : decode w with
    | error e =>
      rw [perform_noBeat hd] at hp
      cases hp
    | ok i =>
      rw [perform_present hd] at hp
      exact exec_addsLegalBeats (decode_wellFormed hd) hp
  | take =>
    obtain rfl := Host.Outcome.next.inj hp
    exact deliver_addsLegalBeats s
  | driveOpt o =>
    obtain rfl := Host.Outcome.next.inj hp
    exact .of_eq rfl rfl
  | assertRst =>
    obtain rfl := Host.Outcome.next.inj hp
    exact resetDecoder_addsLegalBeats s

theorem step_addsLegalBeats {s t : State} (h : step s = .next t) : AddsLegalBeats s t := by
  cases hs : s.schedule with
  | nil =>
    rw [step_idle hs] at h
    obtain rfl := Host.Outcome.next.inj h
    exact .of_eq rfl rfl
  | cons a rest =>
    rw [step_cons hs] at h
    exact perform_addsLegalBeats (s := { s with schedule := rest }) h

/-- Settles O48: the beats that a step adds have the shapes of R58, none of which reports Unknown. -/
theorem unknownIsNeverReported : Obligations.UnknownIsNeverReported := by
  intro s t hs hstep b hb
  rcases step_addsLegalBeats hstep b hb with hold | hlegal
  · exact hs b hold
  · exact reportsUnknown_of_legal hlegal

/-! ### When a decode fails -/

/-- Only a padding unit sets `pad_seen` (R104). -/
theorem decLane_padSeen {skip : Bool} {l : Lane} {c : Codec} (h : (decLane skip l c).1.padSeen = true) :
    c.padSeen = true ∨ decClass l.unit = .pad := by
  rcases decLane_cases skip l c with
    e | ⟨_, -, -, -, -, -, e⟩ | ⟨_, _, _, _, _, -, -, -, -, -, e⟩ | ⟨-, hclass, -, e⟩ | ⟨-, -, -, e⟩
  case inr.inr.inr.inl => exact .inr hclass
  all_goals
    rw [e] at h
    exact .inl h

/-- Units fail a message for the causes X1 and X2 alone (R146); the padding before a symbol may have come before these
units. -/
theorem decodeUnits_fails_cause {skip : Bool} {us : List Byte} {c : Codec} (hf : c.failed = false)
    (h : (decodeUnits skip us c).1.failed = true) :
    (skip = false ∧ us.any isInv = true) ∨ (c.padSeen = true ∧ us.any isSym = true) ∨ symAfterPad us = true := by
  induction us generalizing c with
  | nil =>
    rw [decodeUnits, hf] at h
    cases h
  | cons u us ih =>
    simp only [List.any_cons, symAfterPad, Bool.or_eq_true, Bool.and_eq_true, beq_iff_eq]
    cases hunit : (decLane skip (unitLane u) c).1.failed with
    | true =>
      obtain ⟨-, ⟨hclass, hskip⟩ | ⟨hsym, hpad⟩, -⟩ := decLane_raises hf hunit
      · exact .inl ⟨hskip, .inl (beq_iff_eq.2 hclass)⟩
      · exact .inr (.inl ⟨hpad, .inl hsym⟩)
    | false =>
      rcases ih hunit h with ⟨hskip, hinv⟩ | ⟨hpad, hsym⟩ | hlater
      · exact .inl ⟨hskip, .inr hinv⟩
      · rcases decLane_padSeen hpad with hpad | hclass
        · exact .inr (.inl ⟨hpad, .inr hsym⟩)
        · exact .inr (.inr (.inl ⟨hclass, hsym⟩))
      · exact .inr (.inr (.inr hlater))

/-- The units of a message raise `InvalidInput` exactly for X1 or X2 (R146). -/
theorem decodeUnits_reset_failed_iff (us : List Byte) (skip : Bool) :
    (decodeUnits skip us Codec.reset).1.failed = true ↔
      (skip = false ∧ us.any isInv = true) ∨ symAfterPad us = true := by
  constructor
  · intro h
    rcases decodeUnits_fails_cause Codec.reset_failed h with hinv | ⟨hpad, -⟩ | hsym
    · exact .inl hinv
    · cases hpad
    · exact .inr hsym
  · rintro (⟨rfl, hinv⟩ | hsym)
    · exact decodeUnits_inv_fails hinv _
    · exact decodeUnits_symAfterPad_fails skip hsym _

/-- A decode fails exactly when a unit raised or one symbol is left over from the groups of four (X3, R115). -/
theorem decodeText_error_iff (us : List Byte) (skip : Bool) :
    decodeText us skip = .error .invalidInput ↔
      (decodeUnits skip us Codec.reset).1.failed = true ∨ (us.filter isSym).length % 4 = 1 := by
  have herr : decodeText us skip = .error .invalidInput ↔ (endOf (decodeUnits skip us Codec.reset).1).err = true := by
    rw [decodeText_eq]
    split_ifs with h <;> simp [h]
  rw [herr, endOf_err_iff]
  cases hf : (decodeUnits skip us Codec.reset).1.failed with
  | true => simp
  | false => rw [decodeUnits_pend_length hf]

/-- Settles O52: the causes X1 and X2 of a unit, and X3 at the end; the kind is that of the one failure beat. -/
theorem decodeFailsExactly : Obligations.DecodeFailsExactly := by
  intro us skip
  refine ⟨by rw [decodeText_error_iff, decodeUnits_reset_failed_iff, or_assoc], ?_⟩
  rcases decodeText_cases us skip with ⟨-, hfail⟩ | ⟨-, hok⟩
  · rw [hfail]
    decide
  · rw [hok]
    nofun

end Sys2Proof.Machine

/-! ## Reset and hazards: a reset from any state, the message after it, and the takes that make the decoder ready -/

namespace Sys2Proof.Machine

/-! ### A reset, and two takes -/

/-- Settles O40: the action and the edge with `rst = 1` are the same reset, after which `oq` is empty. -/
theorem resetAction : Obligations.ResetAction := by
  intro s
  refine ⟨perform_assertRst s, fun p hrst => clockEdge_reset s hrst, fun t ht => ?ports⟩
  case ports =>
    obtain rfl := Host.Outcome.next.inj ((perform_assertRst s).symm.trans ht)
    exact ⟨rfl, rfl⟩

/-- Settles O49: the invariant bounds the queue by two beats, which two takes hand over. -/
theorem twoTakesMakeReady : Obligations.TwoTakesMakeReady := by
  intro s rest hinv hs
  obtain ⟨-, hoq, -⟩ := hinv
  exact core_run_take_take hoq hs 0

/-! ### The message after a reset -/

/-- A run that begins with a reset goes on from the decoder's reset values, whatever they were before (R170). -/
theorem core_run_assertRst {s : State} {later : List HostAction} (h : s.schedule = .assertRst :: later) (n : Nat) :
    core.run (n + 1) s = core.run n { s with codec := Codec.reset, oq := [], schedule := later } :=
  core_run_next (step_cons h) n

/-- Driving `opt` is one step, and the run goes on with the new options word and all else as it was (R21). -/
theorem core_run_driveOpt {s : State} {o : OptWord} {rest : List HostAction} (h : s.schedule = .driveOpt o :: rest)
    (n : Nat) : core.run (n + 1) s = core.run n { s with opt := o, schedule := rest } :=
  core_run_next (step_cons h) n

/-- The host's procedure hands over the response to its beats under its options, and nothing else of the decoder
changes (R133). -/
theorem core_run_hostDecode {units : List Byte} {options : Nat} {rest : List HostAction} {s : State}
    (hcodec : s.codec = Codec.reset) (hoq : s.oq = []) (hs : s.schedule = hostDecode units options ++ rest) :
    core.run (hostDecode units options).length s = .next { s with
      schedule := rest
      opt := hostOpt options
      decRecv := s.decRecv ++ (decBeats (skipOf (hostOpt options)) (hostDecodeBeats units) Codec.reset).2 } :=
  (core_run_driveOpt hs _).trans (core_run_sendDec_framed (hostDecodeBeats_framed units) hcodec hoq rfl)

/-- The response to a framed message is data beats and one END beat, and its result is `Decode` of the units (R109,
R110). -/
theorem decBeats_framed_beats (skip : Bool) {bs : List DecIn} (hframed : decFramed bs = true) :
    ∃ (ds : List DecOutBeat) (e : DecOutBeat),
      (decBeats skip bs Codec.reset).2 = ds ++ [e] ∧ (∀ d ∈ ds, d.isData = true) ∧ e.last = true
      ∧ decResult (ds ++ [e]) = some (decodeText (bs.flatMap DecIn.units) skip) := by
  obtain ⟨ds, hbeats, hdata, -⟩ := decBeats_framed skip bs hframed Codec.reset
  have hresult := (decBeats_framed_result skip hframed).2
  rw [hbeats] at hresult
  exact ⟨ds, _, congrArg Prod.snd hbeats, hdata, endOf_last _, hresult⟩

/-- Settles O58: after the reset the run goes on from a decoder that owes nothing, so all that is received or owed is
the response to the next message. -/
theorem resetAbortsTheMessage : Obligations.ResetAbortsTheMessage := by
  refine ⟨fun units options rest s hs => ?procedure, fun n s later skip hs hcont hopt hframed => ?anyRun⟩
  case procedure =>
    obtain ⟨ds, e, hbeats, hdata, hlast, hresult⟩ :=
      decBeats_framed_beats (skipOf (hostOpt options)) (hostDecodeBeats_framed units)
    rw [hostDecodeBeats_units, skipOf_hostOpt] at hresult
    refine ⟨ds, e, ?_, hdata, hlast, hresult⟩
    rw [core_run_assertRst hs, core_run_hostDecode rfl rfl rfl, hbeats, List.append_assoc]
  case anyRun =>
    obtain ⟨ds, e, hbeats, hdata, hlast, hresult⟩ := decBeats_framed_beats skip hframed
    obtain ⟨t, hrun, -, -, howed⟩ :=
      run_owed skip n { s with codec := Codec.reset, oq := [], schedule := later } hcont hopt
    exact ⟨t, ds, e, (core_run_assertRst hs n).trans hrun, by simpa [hbeats] using howed, hdata, hlast, hresult⟩

end Sys2Proof.Machine
